-- ==== Sys2Proof/Word.lean ====
section
/-! DEFINITION. The widths of the machine: words, bytes, register numbers and instruction constants (rules R9, R12, R62). -/

namespace Sys2Proof

/-- A word: 32 bits, 4 bytes (R12). -/
abbrev Word := BitVec 32

/-- A byte: 8 bits (R12). -/
abbrev Byte := BitVec 8

/-- A 64-bit register value of the MODE64 annex (R33, R35). -/
abbrev DWord := BitVec 64

/-- An address, in a container of 64 bits: how many of them an address has is `ALEN` (R6), 32 in the normative mode
(R24, R31) and a parameter in the MODE64 annex (R35). -/
abbrev Addr := BitVec 64

/-- A register number, 0 to 31 (R20, R62). -/
abbrev Reg := BitVec 5

/-- A shift amount, 0 to 31 (R62, R69). -/
abbrev Shamt := BitVec 5

/-- The 16-bit constant of an I-format word (R62). -/
abbrev Imm16 := BitVec 16

/-- The 26-bit constant of a J-format word (R62). -/
abbrev Target26 := BitVec 26

end Sys2Proof
end

