-- ==== Sys2Proof/Machine/Flags.lean ====
section
/-! DEFINITION. The machine has no flags (R28). The only conditions it computes are the overflow of a signed addition
(R100) and the unsigned comparison (R105). -/

namespace Sys2Proof.Machine

/-- The carry out of bit 30, into bit 31 (R100). -/
def carry30 (a b : Word) : Bool := (a.toNat % 2 ^ 31 + b.toNat % 2 ^ 31).testBit 31

/-- The carry out of bit 31, of the sum without wrap (R100). -/
def carry31 (a b : Word) : Bool := (a.toNat + b.toNat).testBit 32

/-- Two's complement overflow of a 32-bit addition: the carries out of bits 30 and 31 differ (R100). -/
def addOverflows (a b : Word) : Bool := carry30 a b != carry31 a b

/-- The truth value of an unsigned comparison as a register value (R105). -/
def lessUnsigned (n : Nat) (a b : BitVec n) : BitVec n := if a.toNat < b.toNat then BitVec.ofNat n 1 else 0

end Sys2Proof.Machine
end

