-- ==== Sys2Proof/Config.lean ====
section
/-! DEFINITION. What is fixed before a run: the launch parameters of rule R6, and the free values and open parameters
of the MODE64 annex (R35, R36), each an opaque constant that nothing can evaluate. -/

namespace Sys2Proof

/-- `ENDIAN` (R6, R40): which byte of a word lies at its address. -/
inductive Endian where
  /-- The byte at address `a` is bits 31 to 24 of the word at `a`. -/
  | big
  /-- The byte at address `a` is bits 7 to 0 of the word at `a`. -/
  | little
  deriving DecidableEq, Repr

/-- `ALEN`, the width of an address and of `pc` in bits (R6): 32 in the normative mode (R24, R31). In MODE64 the source
leaves it open (R35, last bullet): it is the parameter `above` more than 32, so from 32 to 64 (log 11). -/
def addressBits (mode64 : Bool) (above : Fin 33) : Nat := if mode64 then 32 + above.val else 32

/-- The launch inputs of R6, as the host supplies them (R55). `TEXT_LEN` is the length of `text`. -/
structure LaunchParams where
  /-- `TEXT_BASE`. -/
  textBase : Addr
  /-- The instruction words of the program, in order of address. -/
  text : List Word
  /-- `ENTRY`, where the launch gives it. -/
  entryGiven : Option Addr := none
  /-- `END_ADDR`, where the launch gives it. -/
  endAddrGiven : Option Addr := none
  /-- `DATA`: the admitted data addresses, each with its initial word. -/
  data : List (Addr × Word)
  /-- `REGS_INIT`: the launch values of `x[1]` to `x[31]`. Entry 0 is ignored (R22). -/
  regsInit : Vector Word 32
  /-- The upper halves of the launch values in the MODE64 annex. Entry 0 is ignored. -/
  regsInitHi : Vector Word 32
  /-- `ENDIAN`. -/
  endian : Endian
  /-- `MODE64`; `false` in the normative model (R33). -/
  mode64 : Bool
  /-- How many bits an address has above 32 in the MODE64 annex (R35, log 11); of no effect in the normative model. -/
  addressBitsAbove32 : Fin 33
  deriving DecidableEq, Repr

namespace LaunchParams

/-- `ALEN` (R6). -/
def alen (p : LaunchParams) : Nat := addressBits p.mode64 p.addressBitsAbove32

/-- `ENTRY`, whose default is `TEXT_BASE` (R6, R37). -/
def entry (p : LaunchParams) : Addr := p.entryGiven.getD p.textBase

/-- The default of `END_ADDR`, just past the last instruction word: `TEXT_BASE + 4 * TEXT_LEN` (R6, R233), modulo 2^ALEN
(R49, log 20). -/
def defaultEndAddr (p : LaunchParams) : Addr :=
  BitVec.ofNat 64 ((p.textBase.toNat + 4 * p.text.length) % 2 ^ p.alen)

/-- `END_ADDR` (R6, R233). -/
def endAddr (p : LaunchParams) : Addr := p.endAddrGiven.getD p.defaultEndAddr

end LaunchParams

namespace Config

/-- R36: the value a MODE64 word operation writes when an operand is no valid sign-extended 32-bit value, the
`n`-th such draw of the run. FREE VALUE: no body (log 12). -/
opaque anyValue64 : Nat → DWord

/-- R35, last bullet: bits 63:28 of the target of J and JAL in MODE64, from the address of the jump and its field; the
source does not say how many high-order bits are kept there. Open parameter: no body (log 14). -/
opaque jumpRegion64 : Addr → Target26 → BitVec 36

/-- R35, last bullet: the bits of the 64-bit link value of JAL that lie above the width of an address, from the address of
the jump. Open parameter: no body (log 14). -/
opaque linkHigh64 : Addr → DWord

/-- R35, last bullet: the word SW stores of a 64-bit register. Open parameter: no body (log 15). -/
opaque storedWord64 : DWord → Word

end Config

end Sys2Proof
end

