-- ==== Sys2Proof/Machine/Memory.lean ====
section
/-! DEFINITION. Memory as a list of bytes in canonical form, and the words built from it: the one place that lays a word
out in bytes (R40). -/

namespace Sys2Proof.Machine

/-- The canonical form: addresses strictly rising, all inside the container of an address (R31; the bound
`2 ^ ALEN` is part of the invariant). An unlisted address reads as
no value, so no entry can equal what it reads as. -/
abbrev Memory.wf (m : List Host.Cell) : Prop :=
  m.Pairwise (fun c d => c.1 < d.1) ∧ ∀ c ∈ m, c.1 < 2 ^ 64

/-- The byte at an address; `none` where the address is not in the domain (R31). -/
def Memory.readByte : List Host.Cell → Nat → Option Byte
  | [], _ => none
  | (k, b) :: m, a => if k = a then some b else Memory.readByte m a

/-- Put one byte, keeping the addresses rising. -/
def Memory.writeByte : List Host.Cell → Nat → Byte → List Host.Cell
  | [], a, b => [(a, b)]
  | (k, c) :: m, a, b =>
    if a < k then (a, b) :: (k, c) :: m
    else if a = k then (a, b) :: m
    else (k, c) :: Memory.writeByte m a b

/-- The four bytes of a word in order of address (R40). -/
def wordBytes (e : Endian) (w : Word) : Byte × Byte × Byte × Byte :=
  let b0 := w.extractLsb' 0 8
  let b1 := w.extractLsb' 8 8
  let b2 := w.extractLsb' 16 8
  let b3 := w.extractLsb' 24 8
  match e with
  | .big => (b3, b2, b1, b0)
  | .little => (b0, b1, b2, b3)

/-- The word of four bytes in order of address (R40). -/
def bytesWord (e : Endian) (a0 a1 a2 a3 : Byte) : Word :=
  match e with
  | .big => a0 ++ a1 ++ a2 ++ a3
  | .little => a3 ++ a2 ++ a1 ++ a0

/-- The word at a word-aligned address, if the memory holds it: all four bytes are listed (R31, R43). -/
def Memory.readWord (e : Endian) (m : List Host.Cell) (a : Addr) : Option Word :=
  match Memory.readByte m a.toNat, Memory.readByte m (a.toNat + 1),
      Memory.readByte m (a.toNat + 2), Memory.readByte m (a.toNat + 3) with
  | some a0, some a1, some a2, some a3 => some (bytesWord e a0 a1 a2 a3)
  | _, _, _, _ => none

/-- Put the word at a word-aligned address (R44). -/
def Memory.writeWord (e : Endian) (m : List Host.Cell) (a : Addr) (w : Word) : List Host.Cell :=
  let (a0, a1, a2, a3) := wordBytes e w
  Memory.writeByte (Memory.writeByte (Memory.writeByte (Memory.writeByte m a.toNat a0)
    (a.toNat + 1) a1) (a.toNat + 2) a2) (a.toNat + 3) a3

/-- Put a list of words, each at its address: how a launch fills memory (R37, R47). -/
def Memory.writeWords (e : Endian) (m : List Host.Cell) : List (Addr × Word) → List Host.Cell
  | [] => m
  | (a, w) :: rest => Memory.writeWord e (Memory.writeWords e m rest) a w

end Sys2Proof.Machine
end

