-- ==== Sys2Proof/Machine/State.lean ====
section
/-! DEFINITION. The state of the machine (10_state.md, R37) as plain data, the exceptions of R200, the refusals of R209,
and the state right after reset. -/

namespace Sys2Proof.Machine

/-- The parameters of the step that a launch fixes and no step changes (10_state.md "Not state, but parameters of the
step"; R6). -/
structure Launch where
  /-- `TEXT_BASE`: the address of the first instruction word (R47). -/
  textBase : Addr
  /-- `TEXT_LEN`: the number of instruction words (R47). -/
  textLen : Nat
  /-- `END_ADDR`: where the run is over (R233). -/
  endAddr : Addr
  /-- `ENDIAN`: how `mem` lays a word out in bytes (R40). -/
  endian : Endian
  /-- `MODE64`: the operating mode, `false` in the normative model (R33, R37). -/
  mode64 : Bool
  /-- How many bits an address has above 32 in the MODE64 annex: the open address width of R35 (log 11). -/
  addressBitsAbove32 : Fin 33
  deriving DecidableEq, Repr

/-- The whole state. -/
structure State where
  /-- The general registers, low 32 bits (R20, R21). Slot 0 is never read nor written: register 0 is hardwired (R22). -/
  gpr : Vector Word 32
  /-- Bits 63:32 of the general registers, which exist in the MODE64 annex only (R33, R35). -/
  gprHi : Vector Word 32
  /-- The address of the instruction to execute now (R24); its low 32 bits in the MODE64 annex. -/
  pc : Word
  /-- Bits 63:32 of that address, which exist in the MODE64 annex only (R35). -/
  pcHi : Word
  /-- The address of the instruction to execute next (R25); its low 32 bits in the MODE64 annex. -/
  npc : Word
  /-- Bits 63:32 of that address, which exist in the MODE64 annex only (R35). -/
  npcHi : Word
  /-- The instruction at `pc` is in a branch delay slot (R25). -/
  ds : Bool
  /-- The memory: the bytes of the text and data words, addresses strictly rising (R31, R47). An address that is not
  listed is not in the domain: it reads as no value. -/
  mem : List Host.Cell
  /-- The launch parameters. -/
  launch : Launch
  /-- How many free values MODE64 word operations have drawn (R36): the model's own counter. -/
  draws : Nat
  deriving DecidableEq, Repr

/-- The occasion of an address error (R202). -/
inductive AccessKind where
  /-- An instruction fetch. -/
  | fetch
  /-- LW. -/
  | load
  /-- SW. -/
  | store
  deriving DecidableEq, Repr

/-- The two exceptions the hardware raises (R200). -/
inductive Exception where
  /-- Integer overflow (R201). -/
  | overflow
  /-- Address error, with the offending address (R202). -/
  | addressError (kind : AccessKind) (addr : Addr)
  deriving DecidableEq, Repr

/-- Why the machine stops without a refusal. -/
inductive Fault where
  /-- The outcome `Raised(exception, at = pc)` of R206: raised by ADD and ADDI on overflow, by LW and SW on a misaligned
  address and by the fetch on a misaligned `pc`; terminal, the state as before the step. SAFE: nothing can be claimed of
  what follows. -/
  | raised (e : Exception) (atPc : Addr)
  /-- No exception: the normal end of R233, where the machine has no step. Raised by the fetch at `END_ADDR` with
  `ds = 0`. SAFE: the spec's convention says nothing of the chip there (R234). -/
  | runOver
  deriving DecidableEq, Repr

/-- Why the model has no meaning for a step: the list of R209. Each is SAFE: it makes claims unprovable, never false
ones provable. -/
inductive Refusal where
  /-- An instruction not modelled yet, by mnemonic; no arm of exec answers it. SAFE. -/
  | notModelled (mnemonic : String)
  /-- R26 step 3, raised by the fetch: `pc` is aligned, no end of run, and outside the text. SAFE. -/
  | fetchOutsideText (pc : Addr)
  /-- R26 step 5, raised by the fetch: the word matches no row of R73 (R76). SAFE. -/
  | reservedEncoding (pc : Addr) (w : Word)
  /-- R26 step 6, raised by BEQ, BNE, J, JAL and JR with `ds = 1` (R148). SAFE. -/
  | controlTransferInDelaySlot (pc : Addr)
  /-- R43, R44, R48, raised by LW and SW at an aligned address the launch memory does not hold. SAFE. -/
  | unallocatedAccess (addr : Addr)
  /-- R53, raised by SW at an aligned address inside the program text. SAFE. -/
  | storeToText (addr : Addr)
  deriving DecidableEq, Repr

/-- The three outcomes of a step (R26). -/
abbrev StepResult := Host.Outcome State Fault Refusal

/-- The machine before a program is loaded: `ds = 0`, `npc = pc + 4`, 32-bit mode, memory with nothing listed (R37). The
spec describes no reset (R230): an empty text at address 0, zeroed registers and big-endian bytes are DESIGN CHOICES
(log 4, 6, 7, 11, 12). -/
def State.reset : State where
  gpr := Vector.replicate 32 0
  gprHi := Vector.replicate 32 0
  pc := 0
  pcHi := 0
  npc := 4
  npcHi := 0
  ds := false
  mem := []
  launch :=
    { textBase := 0, textLen := 0, endAddr := 0, endian := .big, mode64 := false, addressBitsAbove32 := 0 }
  draws := 0

end Sys2Proof.Machine
end

