-- ==== Sys2Proof/Syntax.lean ====
section
/-! DEFINITION. The 21 machine instructions (R4), one constructor per row of the opcode table (R73), operands in the
order of each Format line (R80). Every operand has exactly the width its field has (R62), so every term is one the
encoding admits. -/

namespace Sys2Proof

/-- A machine instruction. -/
inductive Instr where
  /-- `ADD rd, rs, rt` (R101) -/
  | add (rd rs rt : Reg)
  /-- `ADDI rt, rs, immediate` (R102) -/
  | addi (rt rs : Reg) (imm : Imm16)
  /-- `ADDIU rt, rs, immediate` (R103) -/
  | addiu (rt rs : Reg) (imm : Imm16)
  /-- `ADDU rd, rs, rt` (R104) -/
  | addu (rd rs rt : Reg)
  /-- `AND rd, rs, rt` (R121) -/
  | and (rd rs rt : Reg)
  /-- `ANDI rt, rs, immediate` (R122) -/
  | andi (rt rs : Reg) (imm : Imm16)
  /-- `BEQ rs, rt, offset` (R143) -/
  | beq (rs rt : Reg) (offset : Imm16)
  /-- `BNE rs, rt, offset` (R144) -/
  | bne (rs rt : Reg) (offset : Imm16)
  /-- `J target` (R145) -/
  | j (target : Target26)
  /-- `JAL target` (R146) -/
  | jal (target : Target26)
  /-- `JR rs` (R147) -/
  | jr (rs : Reg)
  /-- `LUI rt, immediate` (R123) -/
  | lui (rt : Reg) (imm : Imm16)
  /-- `LW rt, offset(base)` (R171) -/
  | lw (rt : Reg) (offset : Imm16) (base : Reg)
  /-- `NOR rd, rs, rt` (R124) -/
  | nor (rd rs rt : Reg)
  /-- `OR rd, rs, rt` (R125) -/
  | or (rd rs rt : Reg)
  /-- `ORI rt, rs, immediate` (R126) -/
  | ori (rt rs : Reg) (imm : Imm16)
  /-- `SLL rd, rt, sa` (R181) -/
  | sll (rd rt : Reg) (sa : Shamt)
  /-- `SLTU rd, rs, rt` (R105) -/
  | sltu (rd rs rt : Reg)
  /-- `SRL rd, rt, sa` (R182) -/
  | srl (rd rt : Reg) (sa : Shamt)
  /-- `SUBU rd, rs, rt` (R106) -/
  | subu (rd rs rt : Reg)
  /-- `SW rt, offset(base)` (R172) -/
  | sw (rt : Reg) (offset : Imm16) (base : Reg)
  deriving DecidableEq, Repr

/-- The mnemonic, as R4 and the opcode table spell it. -/
def Instr.mnemonic : Instr → String
  | .add .. => "ADD"
  | .addi .. => "ADDI"
  | .addiu .. => "ADDIU"
  | .addu .. => "ADDU"
  | .and .. => "AND"
  | .andi .. => "ANDI"
  | .beq .. => "BEQ"
  | .bne .. => "BNE"
  | .j .. => "J"
  | .jal .. => "JAL"
  | .jr .. => "JR"
  | .lui .. => "LUI"
  | .lw .. => "LW"
  | .nor .. => "NOR"
  | .or .. => "OR"
  | .ori .. => "ORI"
  | .sll .. => "SLL"
  | .sltu .. => "SLTU"
  | .srl .. => "SRL"
  | .subu .. => "SUBU"
  | .sw .. => "SW"

/-- The five control transfers, which may not stand in a delay slot (R25, R148). -/
def Instr.isTransfer : Instr → Bool
  | .beq .. | .bne .. | .j .. | .jal .. | .jr .. => true
  | .add .. | .addi .. | .addiu .. | .addu .. | .and .. | .andi .. | .lui .. | .lw .. | .nor .. | .or ..
  | .ori .. | .sll .. | .sltu .. | .srl .. | .subu .. | .sw .. => false

/-- The general registers an instruction reads: the `R` entries of R38. -/
def Instr.reads : Instr → List Reg
  | .add _ rs rt | .addu _ rs rt | .subu _ rs rt | .and _ rs rt | .or _ rs rt | .nor _ rs rt
  | .sltu _ rs rt => [rs, rt]
  | .addi _ rs _ | .addiu _ rs _ | .andi _ rs _ | .ori _ rs _ => [rs]
  | .lui _ _ => []
  | .sll _ rt _ | .srl _ rt _ => [rt]
  | .lw _ _ base => [base]
  | .sw rt _ base => [base, rt]
  | .beq rs rt _ | .bne rs rt _ => [rs, rt]
  | .j _ | .jal _ => []
  | .jr rs => [rs]

/-- The general registers an instruction writes when it completes: the `W` entries of R38. -/
def Instr.writes : Instr → List Reg
  | .add rd _ _ | .addu rd _ _ | .subu rd _ _ | .and rd _ _ | .or rd _ _ | .nor rd _ _
  | .sltu rd _ _ => [rd]
  | .addi rt _ _ | .addiu rt _ _ | .andi rt _ _ | .ori rt _ _ => [rt]
  | .lui rt _ => [rt]
  | .sll rd _ _ | .srl rd _ _ => [rd]
  | .lw rt _ _ => [rt]
  | .sw _ _ _ => []
  | .beq _ _ _ | .bne _ _ _ => []
  | .j _ => []
  | .jal _ => [31]
  | .jr _ => []

end Sys2Proof
end

