-- ==== Sys2Proof/WellFormed.lean ====
section
/-! DEFINITION. Which 32-bit words are instructions (R73, R76) and which launches the rules speak of (R231). An `Instr`
needs no check of its own: its operands have exactly the widths of their fields. -/

namespace Sys2Proof

/-- A row of the table of R73: `w` is the instruction exactly when `w & mask = bits`. -/
structure EncodingRow where
  /-- The instruction's mnemonic. -/
  mnemonic : String
  /-- The column `match` of R73. -/
  bits : Word
  /-- The column `mask` of R73. -/
  mask : Word
  deriving DecidableEq, Repr

/-- The complete table of R73, in the source's order. -/
def encodingTable : List EncodingRow :=
  [⟨"ADD", 0x00000020, 0xFC0007FF⟩, ⟨"ADDI", 0x20000000, 0xFC000000⟩, ⟨"ADDIU", 0x24000000, 0xFC000000⟩,
   ⟨"ADDU", 0x00000021, 0xFC0007FF⟩, ⟨"AND", 0x00000024, 0xFC0007FF⟩, ⟨"ANDI", 0x30000000, 0xFC000000⟩,
   ⟨"BEQ", 0x10000000, 0xFC000000⟩, ⟨"BNE", 0x14000000, 0xFC000000⟩, ⟨"J", 0x08000000, 0xFC000000⟩,
   ⟨"JAL", 0x0C000000, 0xFC000000⟩, ⟨"JR", 0x00000008, 0xFC1FFFFF⟩] ++
  [⟨"LUI", 0x3C000000, 0xFFE00000⟩, ⟨"LW", 0x8C000000, 0xFC000000⟩, ⟨"NOR", 0x00000027, 0xFC0007FF⟩,
   ⟨"OR", 0x00000025, 0xFC0007FF⟩, ⟨"ORI", 0x34000000, 0xFC000000⟩, ⟨"SLL", 0x00000000, 0xFFE0003F⟩,
   ⟨"SLTU", 0x0000002B, 0xFC0007FF⟩, ⟨"SRL", 0x00000002, 0xFFE0003F⟩, ⟨"SUBU", 0x00000023, 0xFC0007FF⟩,
   ⟨"SW", 0xAC000000, 0xFC000000⟩]

/-- The word is the row's instruction (R73). -/
def EncodingRow.accepts (row : EncodingRow) (w : Word) : Bool := w &&& row.mask == row.bits

/-- The word is an instruction: it matches some row of R73. Any other word is a reserved encoding (R76). -/
def wordWellFormed (w : Word) : Bool := encodingTable.any fun row => row.accepts w

/-- A multiple of 4 (R12, R42). -/
def wordAligned {n : Nat} (a : BitVec n) : Bool := a.extractLsb' 0 2 == 0

namespace LaunchParams

/-- `a` lies in the program text: one of the `TEXT_LEN` words from `TEXT_BASE` upward (R47). -/
def inText (p : LaunchParams) (a : Addr) : Bool :=
  decide (p.textBase.toNat ≤ a.toNat) && decide (a.toNat < p.textBase.toNat + 4 * p.text.length)

/-- R231 (a), in an address space of 2^ALEN bytes. -/
def textFits (p : LaunchParams) : Bool :=
  wordAligned p.textBase && decide (p.textBase.toNat + 4 * p.text.length ≤ 2 ^ p.alen)

/-- R231 (b). -/
def entryInText (p : LaunchParams) : Bool := wordAligned p.entry && p.inText p.entry

/-- R231 (c). -/
def endAligned (p : LaunchParams) : Bool := wordAligned p.endAddr

/-- R231 (d). -/
def dataPlaced (p : LaunchParams) : Bool := p.data.all fun d => wordAligned d.1 && !p.inText d.1

/-- R231 (e). -/
def endNotData (p : LaunchParams) : Bool := p.inText p.endAddr || p.data.all fun d => d.1 != p.endAddr

/-- `END_ADDR` and the data addresses have the width of an address (R6, R47). -/
def addressesFit (p : LaunchParams) : Bool :=
  decide (p.endAddr.toNat < 2 ^ p.alen) && p.data.all fun d => decide (d.1.toNat < 2 ^ p.alen)

/-- `DATA` is a set of addresses, each with one initial word (R47): none is listed twice. -/
def dataDistinct (p : LaunchParams) : Bool := decide (p.data.map Prod.fst).Nodup

/-- What must hold before the rules of the spec apply (R231). -/
def wellFormed (p : LaunchParams) : Bool :=
  p.textFits && p.entryInText && p.endAligned && p.dataPlaced && p.endNotData && p.addressesFit && p.dataDistinct

end LaunchParams

end Sys2Proof
end

