-- ==== Sys2Proof/Machine/Ops.lean ====
section
/-! DEFINITION. The named operations over registers, memory and the program counter that the meanings share, the primitives
of R13, and taking an exception (R206). -/

namespace Sys2Proof.Machine

/-! ### General registers -/

/-- `x[i]`: the low 32 bits of register `i`; register 0 reads as 0 whatever its slot holds (R13, R22). -/
def State.x (s : State) (r : Reg) : Word := if r = 0 then 0 else s.gpr[r.toNat]'r.isLt

/-- Bits 63:32 of register `r` in the MODE64 annex; 0 for register 0 (R22, R33). -/
def State.hi (s : State) (r : Reg) : Word := if r = 0 then 0 else s.gprHi[r.toNat]'r.isLt

/-- The 64-bit value of register `r` in the MODE64 annex (R33). -/
def State.x64 (s : State) (r : Reg) : DWord := s.hi r ++ s.x r

/-- `x[i] <- v`; a write to register 0 is discarded (R13, R22). -/
def State.setX (s : State) (r : Reg) (v : Word) : State :=
  if r = 0 then s else { s with gpr := s.gpr.set r.toNat v r.isLt }

/-- Write bits 63:32 of register `r`; a write to register 0 is discarded (R22, R33). -/
def State.setHi (s : State) (r : Reg) (v : Word) : State :=
  if r = 0 then s else { s with gprHi := s.gprHi.set r.toNat v r.isLt }

/-- Write a 64-bit register of the MODE64 annex (R33). -/
def State.setX64 (s : State) (r : Reg) (v : DWord) : State :=
  (s.setX r (v.extractLsb' 0 32)).setHi r (v.extractLsb' 32 32)

/-- Write a whole register in the mode of the machine: `v` in 32-bit mode, `v64` in MODE64 (R21, R35). -/
def State.setFull (s : State) (r : Reg) (v : Word) (v64 : DWord) : State :=
  if s.launch.mode64 then s.setX64 r v64 else s.setX r v

/-- Write the 32-bit result of a word operation: as it is in 32-bit mode, sign-extended in MODE64 (R21, R35). -/
def State.setWord (s : State) (r : Reg) (v : Word) : State := s.setFull r v (v.signExtend 64)

/-- "Valid sign-extended, 32-bit value": bits 63 to 31 are all equal (R14, R35). -/
def validWord (v : DWord) : Bool := v.extractLsb' 31 33 == 0 || v.extractLsb' 31 33 == BitVec.allOnes 33

/-- The register operands are valid for a word operation: always in 32-bit mode, where every register value is a 32-bit
value; in MODE64 each must be a valid sign-extended 32-bit value (R34, R35, R36). -/
def State.operandsValid (s : State) (sources : List Reg) : Bool :=
  !s.launch.mode64 || sources.all fun r => validWord (s.x64 r)

/-- R36: write any value to the destination. The value is the next draw of `Config.anyValue64`. -/
def State.drawInto (s : State) (r : Reg) : State :=
  { s.setX64 r (Config.anyValue64 s.draws) with draws := s.draws + 1 }

/-! ### Addresses (R6, R24, R31, R49) -/

/-- `ALEN`, the width of an address: 32 in the normative mode, the parameter of R35 in MODE64 (R6, log 11). -/
def State.alen (s : State) : Nat := addressBits s.launch.mode64 s.launch.addressBitsAbove32

/-- An address sum, modulo 2^ALEN (R49). -/
def State.wrap (s : State) (a : Addr) : Addr := BitVec.ofNat 64 (a.toNat % 2 ^ s.alen)

/-- A 32-bit value as the address it is in the normative mode. -/
def wordAddress (a : Word) : Addr := a.zeroExtend 64

/-- The address of the instruction to execute now, in the mode of the machine (R24, R35). -/
def State.pcAddr (s : State) : Addr := if s.launch.mode64 then s.pcHi ++ s.pc else wordAddress s.pc

/-- The address of the instruction to execute next, in the mode of the machine (R25, R35). -/
def State.npcAddr (s : State) : Addr := if s.launch.mode64 then s.npcHi ++ s.npc else wordAddress s.npc

/-! ### Sequencing (R26 step 8) -/

/-- `pc <- npc; npc <- next; ds <- slot`, in the width of the mode (R24, R35). -/
def State.sequence (s : State) (next : Addr) (slot : Bool) : State :=
  if s.launch.mode64 then
    { s with pc := s.npc, pcHi := s.npcHi, npc := next.extractLsb' 0 32, npcHi := next.extractLsb' 32 32, ds := slot }
  else { s with pc := s.npc, npc := next.extractLsb' 0 32, ds := slot }

/-- The sequencing of an instruction that is no control transfer. -/
def State.advance (s : State) : State := s.sequence (s.wrap (s.npcAddr + 4)) false

/-- The sequencing of a control transfer, taken or not: `npc <- target`, delayed by one instruction (R13, R141). -/
def State.transfer (s : State) (taken : Bool) (target : Addr) : State :=
  s.sequence (if taken then target else s.wrap (s.npcAddr + 4)) true

/-! ### Exceptions (R206) -/

/-- Take an exception: the outcome `Raised(e, at = pc)`, with nothing written. It is terminal (R206) and the machine has no
return from it (R208). -/
def raiseException (e : Exception) (s : State) : StepResult := .fault (.raised e s.pcAddr)

/-! ### Completing an instruction -/

/-- Complete a word operation: write its 32-bit result and advance. -/
def finishWord (s : State) (dst : Reg) (v : Word) : StepResult := .next (s.setWord dst v).advance

/-- Complete an operation on whole registers: write its result in the mode's width and advance (R35). -/
def finishFull (s : State) (dst : Reg) (v : Word) (v64 : DWord) : StepResult := .next (s.setFull dst v v64).advance

/-- A word operation: on valid operands what `run` says, else any value goes to the destination (R35, R36). -/
def wordOperation (s : State) (dst : Reg) (sources : List Reg) (run : StepResult) : StepResult :=
  if s.operandsValid sources then run else .next (s.drawInto dst).advance

/-- Complete a control transfer. In a delay slot it is refused (R26 step 6, R148). -/
def controlTransfer (s : State) (taken : Bool) (target : Addr) : StepResult :=
  if s.ds then .refused (.controlTransferInDelaySlot s.pcAddr) else .next (s.transfer taken target)

/-! ### Memory access (R43, R44, R47) -/

/-- The address lies in the program text (R47). -/
def State.inText (s : State) (a : Addr) : Bool :=
  decide (s.launch.textBase.toNat ≤ a.toNat) && decide (a.toNat < s.launch.textBase.toNat + 4 * s.launch.textLen)

/-- `MemRead(addr, 4)` at a word-aligned address: the word, or `none` outside the domain of `mem` (R43). -/
def State.memRead (s : State) (a : Addr) : Option Word := Memory.readWord s.launch.endian s.mem a

/-- The state with the word at `a` replaced (R44). -/
def State.putWord (s : State) (a : Addr) (v : Word) : State := { s with mem := Memory.writeWord s.launch.endian s.mem a v }

/-- `MemRead` by LW: an absent word is refused (R43, R48). -/
def loadWord (s : State) (a : Addr) (use : Word → StepResult) : StepResult :=
  match s.memRead a with
  | some w => use w
  | none => .refused (.unallocatedAccess a)

/-- `MemWrite` by SW, with the sequencing: admitted inside `DATA` only, that is at a word `mem` holds outside the text
(R44, R47, R48, R53). -/
def storeWord (s : State) (a : Addr) (v : Word) : StepResult :=
  if s.inText a then .refused (.storeToText a)
  else if (s.memRead a).isSome then .next (s.putWord a v).advance
  else .refused (.unallocatedAccess a)

end Sys2Proof.Machine
end

