-- ==== Sys2Proof/Machine/Operands.lean ====
section
/-! DEFINITION. The operand forms: constants (R64 to R66), branch and jump targets (R67, R68), the effective address (R170),
and what MODE64 leaves open of them (R35). -/

namespace Sys2Proof.Machine

/-- The sign-extended immediate of ADDI, ADDIU, LW and SW (R64). -/
def signedImm (imm : Imm16) : Word := imm.signExtend 32

/-- The zero-extended immediate of ANDI and ORI (R65). -/
def zeroImm (imm : Imm16) : Word := imm.zeroExtend 32

/-- The zero-extended immediate in MODE64 (R35). -/
def zeroImm64 (imm : Imm16) : DWord := imm.zeroExtend 64

/-- LUI's constant: the immediate above 16 zeros (R66). -/
def upperImm (imm : Imm16) : Word := imm ++ 0#16

/-- The branch displacement: the offset shifted left two bits and sign-extended (R67). -/
def branchDisplacement (offset : Imm16) : Word := (offset ++ 0#2).signExtend 32

/-- The sign-extended offset of LW and SW in MODE64 (R64, R170). -/
def signedImm64 (imm : Imm16) : DWord := imm.signExtend 64

/-- The branch displacement in MODE64 (R67). -/
def branchDisplacement64 (offset : Imm16) : DWord := (offset ++ 0#2).signExtend 64

/-- The target of BEQ and BNE: the address of the delay slot plus the displacement, modulo 2^ALEN (R67, R142, R143; in
MODE64 with the address width that R35 leaves open, log 14). -/
def State.branchTarget (s : State) (offset : Imm16) : Addr :=
  if s.launch.mode64 then s.wrap (s.pcAddr + 4 + branchDisplacement64 offset)
  else wordAddress (s.pc + 4 + branchDisplacement offset)

/-- The target of J and JAL: the 26-bit field shifted left two bits under the high-order bits of the delay slot's address
(R68, R142, R145). In MODE64 how many high-order bits are kept is open (R35, log 14). -/
def State.jumpTarget (s : State) (target : Target26) : Addr :=
  if s.launch.mode64 then s.wrap (Config.jumpRegion64 s.pcAddr target ++ target ++ 0#2)
  else wordAddress ((s.pc + 4).extractLsb' 28 4 ++ target ++ 0#2)

/-- The target of JR: the address in the register, the two low bits included (R147; in MODE64 as many bits as an address
has, R35, log 14). -/
def State.registerTarget (s : State) (r : Reg) : Addr :=
  if s.launch.mode64 then s.wrap (s.x64 r) else wordAddress (s.x r)

/-- The effective address of LW and SW: base plus offset, modulo 2^ALEN (R49, R170; in MODE64 with the address width that
R35 leaves open, log 13). -/
def State.effectiveAddress (s : State) (base : Reg) (offset : Imm16) : Addr :=
  if s.launch.mode64 then s.wrap (s.x64 base + signedImm64 offset) else wordAddress (s.x base + signedImm offset)

/-- The word SW stores: all 32 bits of the register (R172). In MODE64 which half is open (R35, log 15). -/
def State.storedWord (s : State) (r : Reg) : Word :=
  if s.launch.mode64 then Config.storedWord64 (s.x64 r) else s.x r

/-- The comparison of BEQ and BNE, on all the bits of both registers (R143, R144; 64 of them in MODE64, R35). -/
def State.registersEqual (s : State) (rs rt : Reg) : Bool :=
  if s.launch.mode64 then s.x64 rs == s.x64 rt else s.x rs == s.x rt

/-- The 64-bit link value of JAL: `pc + 8` in as many bits as an address has (R142, R146), the bits above them open (R35,
log 14). -/
def State.linkValue64 (s : State) : DWord :=
  BitVec.ofNat 64 ((Config.linkHigh64 s.pcAddr).toNat / 2 ^ s.alen * 2 ^ s.alen + (s.wrap (s.pcAddr + 8)).toNat)

/-- JAL's write of the link register 31: the address after the delay slot, `pc + 8` (R23, R142, R146). -/
def State.setLink (s : State) : State := s.setFull 31 (s.pc + 8) s.linkValue64

end Sys2Proof.Machine
end

