-- ==== Sys2Proof/Machine/Arithmetic.lean ====
section
/-! DEFINITION. Arithmetic and comparison: ADD, ADDI, ADDIU, ADDU, SLTU, SUBU (40_arithmetic.md). -/

namespace Sys2Proof.Machine

/-- The sum of ADD and ADDI: `Overflow` on signed overflow, with nothing written, else the wrapped sum (R100 to R102). -/
def addChecked (s : State) (dst : Reg) (a b : Word) : StepResult :=
  if addOverflows a b then raiseException .overflow s else finishWord s dst (a + b)

/-- R101 -/
def execAdd (rd rs rt : Reg) (s : State) : StepResult :=
  wordOperation s rd [rs, rt] (addChecked s rd (s.x rs) (s.x rt))

/-- R102 -/
def execAddi (rt rs : Reg) (imm : Imm16) (s : State) : StepResult :=
  wordOperation s rt [rs] (addChecked s rt (s.x rs) (signedImm imm))

/-- R103 -/
def execAddiu (rt rs : Reg) (imm : Imm16) (s : State) : StepResult :=
  wordOperation s rt [rs] (finishWord s rt (s.x rs + signedImm imm))

/-- R104 -/
def execAddu (rd rs rt : Reg) (s : State) : StepResult :=
  wordOperation s rd [rs, rt] (finishWord s rd (s.x rs + s.x rt))

/-- R105; on whole registers in MODE64 (R35) -/
def execSltu (rd rs rt : Reg) (s : State) : StepResult :=
  finishFull s rd (lessUnsigned 32 (s.x rs) (s.x rt)) (lessUnsigned 64 (s.x64 rs) (s.x64 rt))

/-- R106 -/
def execSubu (rd rs rt : Reg) (s : State) : StepResult :=
  wordOperation s rd [rs, rt] (finishWord s rd (s.x rs - s.x rt))

end Sys2Proof.Machine
end

