-- ==== Sys2Proof/Machine/Control.lean ====
section
/-! DEFINITION. Control transfers: BEQ, BNE, J, JAL, JR (42_control_transfer.md), each delayed by one instruction (R141). -/

namespace Sys2Proof.Machine

/-- R143 -/
def execBeq (rs rt : Reg) (offset : Imm16) (s : State) : StepResult :=
  controlTransfer s (s.registersEqual rs rt) (s.branchTarget offset)

/-- R144 -/
def execBne (rs rt : Reg) (offset : Imm16) (s : State) : StepResult :=
  controlTransfer s (!s.registersEqual rs rt) (s.branchTarget offset)

/-- R145 -/
def execJ (target : Target26) (s : State) : StepResult :=
  controlTransfer s true (s.jumpTarget target)

/-- R146 -/
def execJal (target : Target26) (s : State) : StepResult :=
  controlTransfer s.setLink true (s.jumpTarget target)

/-- R147 -/
def execJr (rs : Reg) (s : State) : StepResult :=
  controlTransfer s true (s.registerTarget rs)

end Sys2Proof.Machine
end

