-- ==== Sys2Proof/Machine/LoadStore.lean ====
section
/-! DEFINITION. LW and SW (44_load_store.md): alignment first, then admission, then the access (R170). -/

namespace Sys2Proof.Machine

/-- The alignment check of an access: `AddressError` on a misaligned address, with nothing read or written (R42). -/
def aligned (s : State) (kind : AccessKind) (a : Addr) (access : StepResult) : StepResult :=
  if wordAligned a then access else raiseException (.addressError kind a) s

/-- R171 -/
def execLw (rt : Reg) (offset : Imm16) (base : Reg) (s : State) : StepResult :=
  aligned s .load (s.effectiveAddress base offset)
    (loadWord s (s.effectiveAddress base offset) fun w => finishWord s rt w)

/-- R172 -/
def execSw (rt : Reg) (offset : Imm16) (base : Reg) (s : State) : StepResult :=
  aligned s .store (s.effectiveAddress base offset)
    (storeWord s (s.effectiveAddress base offset) (s.storedWord rt))

end Sys2Proof.Machine
end

