-- ==== Sys2Proof/Machine/Logical.lean ====
section
/-! DEFINITION. Logical and constant-forming instructions: AND, ANDI, LUI, NOR, OR, ORI (41_logical.md). The bit-wise ones
work on whole registers in MODE64 (R35). -/

namespace Sys2Proof.Machine

/-- R121 -/
def execAnd (rd rs rt : Reg) (s : State) : StepResult :=
  finishFull s rd (s.x rs &&& s.x rt) (s.x64 rs &&& s.x64 rt)

/-- R122 -/
def execAndi (rt rs : Reg) (imm : Imm16) (s : State) : StepResult :=
  finishFull s rt (s.x rs &&& zeroImm imm) (s.x64 rs &&& zeroImm64 imm)

/-- R123; the loaded word is sign-extended in MODE64 -/
def execLui (rt : Reg) (imm : Imm16) (s : State) : StepResult :=
  finishWord s rt (upperImm imm)

/-- R124 -/
def execNor (rd rs rt : Reg) (s : State) : StepResult :=
  finishFull s rd (~~~(s.x rs ||| s.x rt)) (~~~(s.x64 rs ||| s.x64 rt))

/-- R125 -/
def execOr (rd rs rt : Reg) (s : State) : StepResult :=
  finishFull s rd (s.x rs ||| s.x rt) (s.x64 rs ||| s.x64 rt)

/-- R126 -/
def execOri (rt rs : Reg) (imm : Imm16) (s : State) : StepResult :=
  finishFull s rt (s.x rs ||| zeroImm imm) (s.x64 rs ||| zeroImm64 imm)

end Sys2Proof.Machine
end

