-- ==== Sys2Proof/Machine/Shift.lean ====
section
/-! DEFINITION. The shifts by a constant, SLL and SRL (45_shift.md); `SLL $0, $0, 0` is the no-operation (R183). -/

namespace Sys2Proof.Machine

/-- R181; in MODE64 the 32-bit result is sign-extended and the operand may be any 64-bit value (R35) -/
def execSll (rd rt : Reg) (sa : Shamt) (s : State) : StepResult :=
  finishWord s rd (s.x rt <<< sa.toNat)

/-- R182; in MODE64 the operand must be valid (R35) -/
def execSrl (rd rt : Reg) (sa : Shamt) (s : State) : StepResult :=
  wordOperation s rd [rt] (finishWord s rd (s.x rt >>> sa.toNat))

end Sys2Proof.Machine
end

