-- ==== Sys2Proof/Decode.lean ====
section
/-! DEFINITION. Decoding and encoding of instruction words, from the formats of R61, the fields of R62 and the opcode maps
R70 to R72. The decoder is total: every word is an instruction or reserved, with the reason (R63, R76). -/

namespace Sys2Proof

/-- `opcode = w[31:26]` (R62). -/
def fieldOpcode (w : Word) : BitVec 6 := w.extractLsb' 26 6

/-- `rs = w[25:21]`, also called `base` (R62). -/
def fieldRs (w : Word) : Reg := w.extractLsb' 21 5

/-- `rt = w[20:16]` (R62). -/
def fieldRt (w : Word) : Reg := w.extractLsb' 16 5

/-- `rd = w[15:11]` (R62). -/
def fieldRd (w : Word) : Reg := w.extractLsb' 11 5

/-- `sa = w[10:6]` (R62). -/
def fieldSa (w : Word) : Shamt := w.extractLsb' 6 5

/-- `funct = w[5:0]` (R62). -/
def fieldFunct (w : Word) : BitVec 6 := w.extractLsb' 0 6

/-- `immediate = w[15:0]`, also called `offset` (R62). -/
def fieldImm (w : Word) : Imm16 := w.extractLsb' 0 16

/-- `target = w[25:0]` (R62). -/
def fieldTarget (w : Word) : Target26 := w.extractLsb' 0 26

/-- Why a word is a reserved encoding: the three cases of R76. -/
inductive Reserved where
  /-- A primary opcode that R70 does not list. -/
  | primaryOpcode
  /-- A function code that R71 does not list. -/
  | functionCode
  /-- A listed instruction with a non-zero bit in a must-be-zero field (R72). -/
  | mustBeZero
  deriving DecidableEq, Repr

/-- What a word decodes to (R63). -/
inductive Decoded where
  /-- One of the 21 instructions. -/
  | instr (i : Instr)
  /-- A reserved encoding. -/
  | reserved (why : Reserved)
  deriving DecidableEq, Repr

/-- R72: the instruction if its must-be-zero fields are zero, else reserved. -/
def strictly (fieldsZero : Bool) (i : Instr) : Decoded :=
  if fieldsZero then .instr i else .reserved .mustBeZero

/-- The function codes of R71, for a word whose opcode is 0. -/
def decodeSpecial (w : Word) : Decoded :=
  let rs := fieldRs w
  let rt := fieldRt w
  let rd := fieldRd w
  let sa := fieldSa w
  let funct := fieldFunct w
  if funct = 0x00 then strictly (rs == 0) (.sll rd rt sa)
  else if funct = 0x02 then strictly (rs == 0) (.srl rd rt sa)
  else if funct = 0x08 then strictly (rt == 0 && rd == 0 && sa == 0) (.jr rs)
  else if funct = 0x20 then strictly (sa == 0) (.add rd rs rt)
  else if funct = 0x21 then strictly (sa == 0) (.addu rd rs rt)
  else if funct = 0x23 then strictly (sa == 0) (.subu rd rs rt)
  else if funct = 0x24 then strictly (sa == 0) (.and rd rs rt)
  else if funct = 0x25 then strictly (sa == 0) (.or rd rs rt)
  else if funct = 0x27 then strictly (sa == 0) (.nor rd rs rt)
  else if funct = 0x2B then strictly (sa == 0) (.sltu rd rs rt)
  else .reserved .functionCode

/-- The decoding procedure of R63 over the primary opcodes of R70. -/
def decodeWord (w : Word) : Decoded :=
  let rs := fieldRs w
  let rt := fieldRt w
  let imm := fieldImm w
  let opcode := fieldOpcode w
  if opcode = 0x00 then decodeSpecial w
  else if opcode = 0x02 then .instr (.j (fieldTarget w))
  else if opcode = 0x03 then .instr (.jal (fieldTarget w))
  else if opcode = 0x04 then .instr (.beq rs rt imm)
  else if opcode = 0x05 then .instr (.bne rs rt imm)
  else if opcode = 0x08 then .instr (.addi rt rs imm)
  else if opcode = 0x09 then .instr (.addiu rt rs imm)
  else if opcode = 0x0C then .instr (.andi rt rs imm)
  else if opcode = 0x0D then .instr (.ori rt rs imm)
  else if opcode = 0x0F then strictly (rs == 0) (.lui rt imm)
  else if opcode = 0x23 then .instr (.lw rt imm rs)
  else if opcode = 0x2B then .instr (.sw rt imm rs)
  else .reserved .primaryOpcode

/-- An R-format word, opcode 0 (R61). -/
def encodeR (rs rt rd : Reg) (sa : Shamt) (funct : BitVec 6) : Word := 0#6 ++ rs ++ rt ++ rd ++ sa ++ funct

/-- An I-format word (R61). -/
def encodeI (opcode : BitVec 6) (rs rt : Reg) (imm : Imm16) : Word := opcode ++ rs ++ rt ++ imm

/-- A J-format word (R61). -/
def encodeJ (opcode : BitVec 6) (target : Target26) : Word := opcode ++ target

/-- The word of an instruction: its pattern in R73. -/
def encode : Instr → Word
  | .add rd rs rt => encodeR rs rt rd 0 0x20
  | .addi rt rs imm => encodeI 0x08 rs rt imm
  | .addiu rt rs imm => encodeI 0x09 rs rt imm
  | .addu rd rs rt => encodeR rs rt rd 0 0x21
  | .and rd rs rt => encodeR rs rt rd 0 0x24
  | .andi rt rs imm => encodeI 0x0C rs rt imm
  | .beq rs rt offset => encodeI 0x04 rs rt offset
  | .bne rs rt offset => encodeI 0x05 rs rt offset
  | .j target => encodeJ 0x02 target
  | .jal target => encodeJ 0x03 target
  | .jr rs => encodeR rs 0 0 0 0x08
  | .lui rt imm => encodeI 0x0F 0 rt imm
  | .lw rt offset base => encodeI 0x23 base rt offset
  | .nor rd rs rt => encodeR rs rt rd 0 0x27
  | .or rd rs rt => encodeR rs rt rd 0 0x25
  | .ori rt rs imm => encodeI 0x0D rs rt imm
  | .sll rd rt sa => encodeR 0 rt rd sa 0x00
  | .sltu rd rs rt => encodeR rs rt rd 0 0x2B
  | .srl rd rt sa => encodeR 0 rt rd sa 0x02
  | .subu rd rs rt => encodeR rs rt rd 0 0x23
  | .sw rt offset base => encodeI 0x2B base rt offset

/-- The instruction of a table word of `nbits` bits, the bits above them zero; `none` where the word is reserved. Every
instruction is one word (R61), so the table's numbering is the word's own. -/
def decodeTableWord (nbits w : Nat) : Option Instr :=
  match decodeWord (BitVec.ofNat 32 (w % 2 ^ nbits)) with
  | .instr i => some i
  | .reserved _ => none

end Sys2Proof
end

