-- ==== Sys2Proof/Machine/Fetch.lean ====
section
/-! DEFINITION. Steps 1 to 5 of R26: the end of the run, the fetch and the decoding of one instruction. -/

namespace Sys2Proof.Machine

/-- The run is over, normally, exactly when `pc = END_ADDR` and `ds = 0` (R233). -/
def State.isOver (s : State) : Bool := !s.ds && s.pcAddr == s.launch.endAddr

/-- The instruction to execute now, or why there is none, in the order of R26 steps 1 to 5. -/
def fetchInstr (s : State) : Host.Outcome Instr Fault Refusal :=
  if s.isOver then .fault .runOver
  else if !wordAligned s.pcAddr then .fault (.raised (.addressError .fetch s.pcAddr) s.pcAddr)
  else if !s.inText s.pcAddr then .refused (.fetchOutsideText s.pcAddr)
  else
    match s.memRead s.pcAddr with
    | none => .refused (.unallocatedAccess s.pcAddr)
    | some w =>
      match decodeWord w with
      | .instr i => .next i
      | .reserved _ => .refused (.reservedEncoding s.pcAddr w)

/-- The state with a word placed as the instruction at `pc`: its bytes in memory, and, where `pc` is not in the text or is
the end of the run, the text and the end of the run moved so that it is fetched. -/
def State.placeInstruction (s : State) (w : Word) : State :=
  { s with
    mem := Memory.writeWord s.launch.endian s.mem s.pcAddr w
    launch :=
      { s.launch with
        textBase := if s.inText s.pcAddr then s.launch.textBase else s.pcAddr
        textLen := if s.inText s.pcAddr then s.launch.textLen else 1
        endAddr := if s.launch.endAddr = s.pcAddr then s.wrap (s.pcAddr + 4) else s.launch.endAddr } }

end Sys2Proof.Machine
end

