-- ==== Sys2Proof/Machine/Step.lean ====
section
/-! DEFINITION. One step of the machine (R26). -/

namespace Sys2Proof.Machine

/-- One step: fetch and decode, then execute (R26). -/
def step (s : State) : Host.Outcome State Fault Refusal :=
  match fetchInstr s with
  | .next i => exec i s
  | .fault f => .fault f
  | .refused r => .refused r

/-- `s` with the instruction word `w` of `nbits` bits where `step` fetches next: at `pc`, as the program text there. It
stands for the host's loading of a program (R55, log 9). -/
def State.withFetchWord (s : State) (nbits w : Nat) : State :=
  s.placeInstruction (BitVec.ofNat 32 (w % 2 ^ nbits))

end Sys2Proof.Machine
end

