-- ==== Sys2Proof/Machine/Assembler.lean ====
section
/-! DEFINITION. What an assembler does for the machine: the pseudo-instruction LA (R160), the no-operation (R83, R183), and
the operand fields it computes from labels and constants (R82). -/

namespace Sys2Proof.Machine

/-- `nop`: `SLL $0, $0, 0`, the word 0x00000000 (R83, R183). -/
def nop : Instr := .sll 0 0 0

/-- The expansion of `la rt, LABEL` for a label at address `a` (R160). -/
def expandLa (rt : Reg) (a : Word) : List Instr :=
  if a.extractLsb' 0 16 = 0 then [.lui rt (a.extractLsb' 16 16)]
  else [.lui rt (a.extractLsb' 16 16), .ori rt rt (a.extractLsb' 0 16)]

/-- Execute instructions one after another, stopping at the first that does not complete. -/
def execAll : List Instr → State → StepResult
  | [], s => .next s
  | i :: rest, s =>
    match exec i s with
    | .next t => execAll rest t
    | .fault f => .fault f
    | .refused r => .refused r

/-- The `offset` field of a branch at `a` to the label address `l`: `((l - (a + 4)) / 4)[15:0]`, where the distance is a
multiple of 4 from -131072 to 131068 (R82). -/
def branchOffsetTo (a l : Word) : Option Imm16 :=
  let d := (l - (a + 4)).toInt
  if d % 4 = 0 ∧ -131072 ≤ d ∧ d ≤ 131068 then some (BitVec.ofInt 16 (d / 4)) else none

/-- The `target` field of a jump at `a` to the label address `l`: `l[27:2]`, where `l` is aligned and in the region of the
delay slot (R82). -/
def jumpFieldTo (a l : Word) : Option Target26 :=
  if wordAligned l ∧ l.extractLsb' 28 4 = (a + 4).extractLsb' 28 4 then some (l.extractLsb' 2 26) else none

/-- The constant of ADDI, ADDIU, LW and SW: -32768 to 32767 (R82). -/
def signedConstant (n : Int) : Option Imm16 :=
  if -32768 ≤ n ∧ n ≤ 32767 then some (BitVec.ofInt 16 n) else none

/-- The constant of ANDI, ORI and LUI: 0 to 65535 (R82). -/
def unsignedConstant (n : Nat) : Option Imm16 := if n ≤ 65535 then some (BitVec.ofNat 16 n) else none

/-- The shift amount of SLL and SRL: 0 to 31 (R82). -/
def shiftConstant (n : Nat) : Option Shamt := if n ≤ 31 then some (BitVec.ofNat 5 n) else none

end Sys2Proof.Machine
end

