-- ==== Sys2Proof/Machine/Launch.lean ====
section
/-! DEFINITION. The launch state of R37, as a function of the launch parameters. -/

namespace Sys2Proof.Machine

/-- The text words with their addresses, from `a` upward (R37, R47). -/
def textCells (a : Addr) : List Word → List (Addr × Word)
  | [] => []
  | w :: rest => (a, w) :: textCells (a + 4) rest

/-- The value of `npc` at launch: `ENTRY + 4` (R37), modulo 2^ALEN (R49). -/
def launchNext (p : LaunchParams) : Addr := BitVec.ofNat 64 ((p.entry.toNat + 4) % 2 ^ p.alen)

/-- The state at launch (R37, R230). -/
def State.ofLaunch (p : LaunchParams) : State where
  gpr := p.regsInit
  gprHi := p.regsInitHi
  pc := p.entry.extractLsb' 0 32
  pcHi := p.entry.extractLsb' 32 32
  npc := (launchNext p).extractLsb' 0 32
  npcHi := (launchNext p).extractLsb' 32 32
  ds := false
  mem := Memory.writeWords p.endian [] (textCells p.textBase p.text ++ p.data)
  launch :=
    { textBase := p.textBase, textLen := p.text.length, endAddr := p.endAddr, endian := p.endian, mode64 := p.mode64
      addressBitsAbove32 := p.addressBitsAbove32 }
  draws := 0

end Sys2Proof.Machine
end

