-- ==== Sys2Proof/Safety.lean ====
section
/-! DEFINITION. The terms the statements use: the invariant of a launched machine, and what an instruction may change
(its frame). -/

namespace Sys2Proof.Machine

/-- What a launch establishes and every step keeps. -/
structure Inv (s : State) : Prop where
  /-- The memory is in canonical form. -/
  memory : Memory.wf s.mem
  /-- Every byte of it has an address of the machine's width (R31). -/
  inSpace : ∀ a, (Memory.readByte s.mem a).isSome = true → a < 2 ^ s.alen
  /-- The domain of the memory is made of whole words (R31). -/
  wholeWords : ∀ a, (Memory.readByte s.mem a).isSome = (Memory.readByte s.mem (4 * (a / 4))).isSome
  /-- `TEXT_BASE` is a multiple of 4 and the text ends inside the address space (R231 (a)). -/
  textFits : wordAligned s.launch.textBase = true ∧ s.launch.textBase.toNat + 4 * s.launch.textLen ≤ 2 ^ s.alen
  /-- Every word of the text is in memory (R47). -/
  textLoaded : ∀ k < s.launch.textLen, (Memory.readByte s.mem (s.launch.textBase.toNat + 4 * k)).isSome = true
  /-- `END_ADDR` is an address and a multiple of 4 (R231 (c)). -/
  endAligned : wordAligned s.launch.endAddr = true ∧ s.launch.endAddr.toNat < 2 ^ s.alen
  /-- `pc` and `npc` are addresses of the machine's width (R24, R25). -/
  pcFits : s.pcAddr.toNat < 2 ^ s.alen ∧ s.npcAddr.toNat < 2 ^ s.alen
  /-- Whenever `ds = 0`, `npc = pc + 4` (R27). -/
  nextFollows : s.ds = false → s.npcAddr.toNat = (s.pcAddr.toNat + 4) % 2 ^ s.alen

/-- The upper halves of `pc` and `npc`, which the normative mode has not, are as before in it. -/
def KeepsUpperHalves (s t : State) : Prop := s.launch.mode64 = false → t.pcHi = s.pcHi ∧ t.npcHi = s.npcHi

/-- The sequencing of an instruction that is no control transfer (R26 step 8). -/
structure Advances (s t : State) : Prop where
  pc : t.pcAddr = s.npcAddr
  npc : t.npcAddr.toNat = (s.npcAddr.toNat + 4) % 2 ^ s.alen
  ds : t.ds = false
  upper : KeepsUpperHalves s t

/-- The sequencing of a control transfer (R26 step 8, R140). -/
structure Transfers (s t : State) (taken : Prop) (target : Nat) : Prop where
  pc : t.pcAddr = s.npcAddr
  npcTaken : taken → t.npcAddr.toNat = target
  npcNotTaken : ¬taken → t.npcAddr.toNat = (s.npcAddr.toNat + 4) % 2 ^ s.alen
  ds : t.ds = true
  upper : KeepsUpperHalves s t

/-- The run is not over, `pc` is aligned and inside the text, and the word there is `w`: steps 1 to 4 of R26 pass. -/
structure Fetches (s : State) (w : Word) : Prop where
  going : ¬(s.pcAddr = s.launch.endAddr ∧ s.ds = false)
  align : s.pcAddr.toNat % 4 = 0
  above : s.launch.textBase.toNat ≤ s.pcAddr.toNat
  below : s.pcAddr.toNat < s.launch.textBase.toNat + 4 * s.launch.textLen
  held : s.memRead s.pcAddr = some w

/-- Memory, launch parameters and the count of drawn values are as before. -/
structure KeepsRest (s t : State) : Prop where
  memory : ∀ a, Memory.readByte t.mem a = Memory.readByte s.mem a
  launch : t.launch = s.launch
  draws : t.draws = s.draws

/-- Every register is as before, in both halves. -/
def KeepsRegisters (s t : State) : Prop := ∀ r, t.x64 r = s.x64 r

/-- The frame of a 32-bit result: register `dst` holds `v` (0 if it is register 0), every other register, every upper
half, memory and the launch parameters are as before. -/
structure WritesWord (s t : State) (dst : Reg) (v : Word) : Prop where
  value : t.x dst = if dst = 0 then 0 else v
  others : ∀ r, r ≠ dst → t.x r = s.x r
  high : ∀ r, t.hi r = s.hi r
  rest : KeepsRest s t

/-- The frame of a 64-bit result in MODE64. -/
structure WritesDWord (s t : State) (dst : Reg) (v : DWord) : Prop where
  value : t.x64 dst = if dst = 0 then 0 else v
  others : ∀ r, r ≠ dst → t.x64 r = s.x64 r
  rest : KeepsRest s t

/-- The frame of a store of the word `v` at `a`: that word reads back, every byte outside its four is as before, and so is
everything else. -/
structure StoresWord (s t : State) (a : Addr) (v : Word) : Prop where
  stored : t.memRead a = some v
  outside : ∀ b, b < a.toNat ∨ a.toNat + 4 ≤ b → Memory.readByte t.mem b = Memory.readByte s.mem b
  registers : KeepsRegisters s t
  launch : t.launch = s.launch
  draws : t.draws = s.draws

/-- What a step answers with its next state replaced by `f` of it. -/
def mapNext (f : State → State) : StepResult → StepResult
  | .next t => .next (f t)
  | .fault r => .fault r
  | .refused r => .refused r

/-- Two states that agree on everything a program can see, however each lays its words out in bytes (R40). -/
structure SameWords (s t : State) : Prop where
  gpr : s.gpr = t.gpr
  gprHi : s.gprHi = t.gprHi
  pc : s.pc = t.pc
  pcHi : s.pcHi = t.pcHi
  npc : s.npc = t.npc
  npcHi : s.npcHi = t.npcHi
  ds : s.ds = t.ds
  draws : s.draws = t.draws
  textBase : s.launch.textBase = t.launch.textBase
  textLen : s.launch.textLen = t.launch.textLen
  endAddr : s.launch.endAddr = t.launch.endAddr
  mode64 : s.launch.mode64 = t.launch.mode64
  addressBits : s.launch.addressBitsAbove32 = t.launch.addressBitsAbove32
  words : ∀ a, wordAligned a = true → s.memRead a = t.memRead a

/-- Two outcomes that agree: next states with the same words, or the same fault, or the same refusal. -/
def SameOutcome : StepResult → StepResult → Prop
  | .next s, .next t => SameWords s t
  | .fault f, .fault g => f = g
  | .refused q, .refused r => q = r
  | _, _ => False

/-- A step that is no refusal and no exception: it goes on, or the run is over (R235 (1)). -/
def SafeStep (s : State) : Prop := (∃ t, step s = .next t) ∨ step s = .fault .runOver

end Sys2Proof.Machine
end

