-- ==== Sys2Proof/Certificates/Slice0/Obligations.lean ====
section
/-! DEFINITION. The statements for the provers, from the numbered rules of spec/. -/

open Sys2Proof Sys2Proof.Machine

/-! ### Encoding -/

/-- R61, R62, R73: decoding the word of an instruction gives it back, every operand at every value. -/
def Obligations.DecodeOfEncode : Prop := ∀ i : Instr, decodeWord (encode i) = .instr i

/-- R63, R72: a word that decodes to an instruction is that instruction's word, so each word has one meaning and no bit is
ignored. -/
def Obligations.EncodeOfDecode : Prop := ∀ (w : Word) (i : Instr), decodeWord w = .instr i → encode i = w

/-- R73: "a word w is the instruction exactly when w & mask = match", for every row of the table. -/
def Obligations.MatchAndMaskSelectTheInstruction : Prop :=
  ∀ (w : Word), ∀ row ∈ encodingTable,
    w &&& row.mask = row.bits ↔ ∃ i, decodeWord w = .instr i ∧ i.mnemonic = row.mnemonic

/-- R76: a word is a reserved encoding exactly when it matches no row of R73; and the step that would run it, its `pc`
aligned and inside the text, is refused with `ReservedEncoding(pc, w)`. -/
def Obligations.ReservedExactlyOutsideTheTable : Prop :=
  ∀ w : Word,
    ((∃ why, decodeWord w = .reserved why) ↔ ∀ row ∈ encodingTable, w &&& row.mask ≠ row.bits) ∧
    ∀ s : State, Fetches s w → (∀ row ∈ encodingTable, w &&& row.mask ≠ row.bits) →
      step s = .refused (.reservedEncoding s.pcAddr w)

/-- Words of 95_test_vectors.md 2.1, written out from the patterns of R73. -/
def Obligations.SpecWordsDecode : Prop :=
  decodeWord 0x00221820 = .instr (.add 3 1 2) ∧
  decodeWord 0x2022FFFF = .instr (.addi 2 1 0xFFFF) ∧
  decodeWord 0x3C021000 = .instr (.lui 2 0x1000) ∧
  decodeWord 0x8C620004 = .instr (.lw 2 4 3) ∧
  decodeWord 0xAC62FFFC = .instr (.sw 2 0xFFFC 3) ∧
  decodeWord 0x00021902 = .instr (.srl 3 2 4) ∧
  decodeWord 0x1422FFFE = .instr (.bne 1 2 0xFFFE) ∧
  decodeWord 0x0C100004 = .instr (.jal 0x0100004) ∧
  decodeWord 0x03E00008 = .instr (.jr 31) ∧
  decodeWord 0x00221822 = .reserved .functionCode ∧
  decodeWord 0x80620004 = .reserved .primaryOpcode ∧
  decodeWord 0x00221860 = .reserved .mustBeZero

/-! ### The step, the end of the run and the launch -/

/-- R26: where the run is not over and the word at an aligned `pc` inside the text decodes to an instruction, the step is
that instruction's execution and nothing besides: the sequencing of R26 step 8 is in `exec`. -/
def Obligations.StepRunsTheDecodedInstruction : Prop :=
  ∀ (s : State) (w : Word) (i : Instr), Fetches s w → decodeWord w = .instr i → step s = exec i s

/-- R233: the run is over, normally, exactly when `pc = END_ADDR` and `ds = 0`. -/
def Obligations.RunIsOverExactlyAtEndAddr : Prop :=
  ∀ s : State, step s = .fault .runOver ↔ s.pcAddr = s.launch.endAddr ∧ s.ds = false

/-- R26 steps 1 to 3, in order: `pc = END_ADDR` with `ds = 0` is the end of the run wherever `pc` lies and however it is
aligned (`runOver`, the model's name for it, log 3); else a misaligned `pc` raises `AddressError(fetch, pc)` wherever it
lies; else a `pc` outside the text is refused. -/
def Obligations.FetchStopsInOrder : Prop :=
  ∀ s : State,
    (s.pcAddr = s.launch.endAddr ∧ s.ds = false → step s = .fault .runOver) ∧
    (¬(s.pcAddr = s.launch.endAddr ∧ s.ds = false) → s.pcAddr.toNat % 4 ≠ 0 →
      step s = .fault (.raised (.addressError .fetch s.pcAddr) s.pcAddr)) ∧
    (¬(s.pcAddr = s.launch.endAddr ∧ s.ds = false) → s.pcAddr.toNat % 4 = 0 →
      s.pcAddr.toNat < s.launch.textBase.toNat ∨
        s.launch.textBase.toNat + 4 * s.launch.textLen ≤ s.pcAddr.toNat →
      step s = .refused (.fetchOutsideText s.pcAddr))

/-- R55 and the model's log 9: an instruction word placed at an aligned `pc` is what the next step runs. -/
def Obligations.PlacedInstructionRunsNext : Prop :=
  ∀ (s : State) (w : Word) (i : Instr), wordAligned s.pcAddr = true → decodeWord w = .instr i →
    step (s.withFetchWord 32 w.toNat) = exec i (s.withFetchWord 32 w.toNat)

/-- R37's fixed values, and the model's choices for the OPEN ones (log 4, 6, 7): the state before a program is loaded. -/
def Obligations.ResetStateIsAsLogged : Prop :=
  State.reset.pc = 0 ∧ State.reset.npc = State.reset.pc + 4 ∧ State.reset.ds = false ∧ State.reset.mem = [] ∧
  State.reset.launch.mode64 = false ∧ State.reset.launch.textLen = 0 ∧
  State.reset.launch.endAddr = State.reset.launch.textBase ∧
  (∀ r : Reg, State.reset.x64 r = 0) ∧ step State.reset = .fault .runOver

/-- R37, R231, R6: the launch state of every launch that meets the requirements, with the defaults of `ENTRY` and
`END_ADDR` where the launch gives none, the latter modulo the width of an address (log 20). That the launch lists no data
address twice and gives addresses of the machine's width are requirements of the model (log 19); in MODE64 that width and
the wrap at it are the model's choice (log 11). -/
def Obligations.LaunchStateIsAsTabulated : Prop :=
  ∀ p : LaunchParams, p.wellFormed = true →
    (State.ofLaunch p).pcAddr = p.entryGiven.getD p.textBase ∧
    (State.ofLaunch p).npcAddr.toNat = ((State.ofLaunch p).pcAddr.toNat + 4) % 2 ^ (State.ofLaunch p).alen ∧
    (State.ofLaunch p).ds = false ∧
    (State.ofLaunch p).launch.textBase = p.textBase ∧ (State.ofLaunch p).launch.textLen = p.text.length ∧
    (∀ e, p.endAddrGiven = some e → (State.ofLaunch p).launch.endAddr = e) ∧
    (p.endAddrGiven = none → (State.ofLaunch p).launch.endAddr.toNat =
      (p.textBase.toNat + 4 * p.text.length) % 2 ^ (State.ofLaunch p).alen) ∧
    (State.ofLaunch p).launch.mode64 = p.mode64 ∧ (State.ofLaunch p).launch.endian = p.endian ∧
    (State.ofLaunch p).x 0 = 0 ∧
    (∀ r : Reg, r ≠ 0 → (State.ofLaunch p).x r = p.regsInit[r.toNat]'r.isLt) ∧
    (∀ k (h : k < p.text.length),
      (State.ofLaunch p).memRead (p.textBase + BitVec.ofNat 64 (4 * k)) = some p.text[k]) ∧
    (∀ d ∈ p.data, (State.ofLaunch p).memRead d.1 = some d.2) ∧
    (∀ a, wordAligned a = true → p.inText a = false → (∀ d ∈ p.data, d.1 ≠ a) → (State.ofLaunch p).memRead a = none)

/-- R31, R47, R231, R27: a launch that meets the requirements establishes the invariant, in MODE64 at every address width the
model allows (log 11). -/
def Obligations.LaunchMeetsTheInvariant : Prop := ∀ p : LaunchParams, p.wellFormed = true → Inv (State.ofLaunch p)

/-- The state of `State.reset` meets the invariant. -/
def Obligations.ResetMeetsTheInvariant : Prop := Inv State.reset

/-- R27, R31, R47: every step keeps the invariant, in MODE64 at every address width the model allows (log 11). -/
def Obligations.StepKeepsTheInvariant : Prop := ∀ s t : State, Inv s → step s = .next t → Inv t

/-- R47, R53: no step changes the launch parameters, the domain of the memory or a byte of the text. -/
def Obligations.DomainAndTextNeverChange : Prop :=
  ∀ s t : State, Inv s → step s = .next t →
    t.launch = s.launch ∧
    (∀ a, (Memory.readByte t.mem a).isSome = (Memory.readByte s.mem a).isSome) ∧
    ∀ a, s.launch.textBase.toNat ≤ a → a < s.launch.textBase.toNat + 4 * s.launch.textLen →
      Memory.readByte t.mem a = Memory.readByte s.mem a

/-- R27, first invariant: after any step, from any state, `ds = 0` gives `npc = pc + 4`; so does any launch. In the 32-bit
mode this is R27; the clauses modulo `2 ^ alen` add MODE64, where the width of an address and the wrap at it are the model's
choice (log 11, DESIGN CHOICE). -/
def Obligations.NextAddressFollowsOutsideSlots : Prop :=
  (∀ p : LaunchParams, p.mode64 = false → (State.ofLaunch p).npc = (State.ofLaunch p).pc + 4) ∧
  (∀ p : LaunchParams, (State.ofLaunch p).npcAddr.toNat =
    ((State.ofLaunch p).pcAddr.toNat + 4) % 2 ^ (State.ofLaunch p).alen) ∧
  ∀ s t : State, step s = .next t → t.ds = false →
    (t.launch.mode64 = false → t.npc = t.pc + 4) ∧ t.npcAddr.toNat = (t.pcAddr.toNat + 4) % 2 ^ t.alen

/-- R27, second invariant: an instruction other than JR takes aligned `pc` and `npc` to aligned ones. In the 32-bit mode
this is R27 and R149 (b); in MODE64 it rests on the model's reading of the targets, whose two low bits are those every
address width gives (log 14, DEDUCED). -/
def Obligations.OnlyJrMisalignsTheProgramCounter : Prop :=
  ∀ (i : Instr) (s t : State), (∀ rs, i ≠ .jr rs) → s.pcAddr.toNat % 4 = 0 → s.npcAddr.toNat % 4 = 0 →
    exec i s = .next t → t.pcAddr.toNat % 4 = 0 ∧ t.npcAddr.toNat % 4 = 0

/-! ### Arithmetic (40_arithmetic.md), in the normative 32-bit mode -/

/-- R100: the carries out of bits 30 and 31 differ exactly when both operands have one sign and the sum another, and
exactly when the signed sum is not representable. -/
def Obligations.AddOverflowForms : Prop :=
  ∀ a b : Word,
    (addOverflows a b = true ↔ a.msb = b.msb ∧ (a + b).msb ≠ a.msb) ∧
    (addOverflows a b = true ↔ a.toInt + b.toInt < -2 ^ 31 ∨ 2 ^ 31 ≤ a.toInt + b.toInt)

/-- R101: ADD. -/
def Obligations.AddResult : Prop :=
  ∀ (rd rs rt : Reg) (s : State), s.launch.mode64 = false →
    decodeWord (0b000000#6 ++ rs ++ rt ++ rd ++ 0b00000#5 ++ 0b100000#6) = .instr (.add rd rs rt) ∧
    (-2 ^ 31 ≤ (s.x rs).toInt + (s.x rt).toInt ∧ (s.x rs).toInt + (s.x rt).toInt < 2 ^ 31 →
      ∃ t, exec (.add rd rs rt) s = .next t ∧ Advances s t ∧
        WritesWord s t rd (BitVec.ofInt 32 ((s.x rs).toInt + (s.x rt).toInt))) ∧
    (¬(-2 ^ 31 ≤ (s.x rs).toInt + (s.x rt).toInt ∧ (s.x rs).toInt + (s.x rt).toInt < 2 ^ 31) →
      exec (.add rd rs rt) s = .fault (.raised .overflow s.pcAddr))

/-- R102: ADDI. -/
def Obligations.AddiResult : Prop :=
  ∀ (rt rs : Reg) (imm : Imm16) (s : State), s.launch.mode64 = false →
    decodeWord (0b001000#6 ++ rs ++ rt ++ imm) = .instr (.addi rt rs imm) ∧
    (-2 ^ 31 ≤ (s.x rs).toInt + imm.toInt ∧ (s.x rs).toInt + imm.toInt < 2 ^ 31 →
      ∃ t, exec (.addi rt rs imm) s = .next t ∧ Advances s t ∧
        WritesWord s t rt (BitVec.ofInt 32 ((s.x rs).toInt + imm.toInt))) ∧
    (¬(-2 ^ 31 ≤ (s.x rs).toInt + imm.toInt ∧ (s.x rs).toInt + imm.toInt < 2 ^ 31) →
      exec (.addi rt rs imm) s = .fault (.raised .overflow s.pcAddr))

/-- R103: ADDIU. -/
def Obligations.AddiuResult : Prop :=
  ∀ (rt rs : Reg) (imm : Imm16) (s : State), s.launch.mode64 = false →
    decodeWord (0b001001#6 ++ rs ++ rt ++ imm) = .instr (.addiu rt rs imm) ∧
    ∃ t, exec (.addiu rt rs imm) s = .next t ∧ Advances s t ∧
      WritesWord s t rt (BitVec.ofInt 32 ((s.x rs).toInt + imm.toInt))

/-- R104: ADDU. -/
def Obligations.AdduResult : Prop :=
  ∀ (rd rs rt : Reg) (s : State), s.launch.mode64 = false →
    decodeWord (0b000000#6 ++ rs ++ rt ++ rd ++ 0b00000#5 ++ 0b100001#6) = .instr (.addu rd rs rt) ∧
    ∃ t, exec (.addu rd rs rt) s = .next t ∧ Advances s t ∧
      WritesWord s t rd (BitVec.ofNat 32 ((s.x rs).toNat + (s.x rt).toNat))

/-- R105: SLTU. -/
def Obligations.SltuResult : Prop :=
  ∀ (rd rs rt : Reg) (s : State), s.launch.mode64 = false →
    decodeWord (0b000000#6 ++ rs ++ rt ++ rd ++ 0b00000#5 ++ 0b101011#6) = .instr (.sltu rd rs rt) ∧
    ∃ t, exec (.sltu rd rs rt) s = .next t ∧ Advances s t ∧
      ((s.x rs).toNat < (s.x rt).toNat → WritesWord s t rd 0x00000001) ∧
      ((s.x rt).toNat ≤ (s.x rs).toNat → WritesWord s t rd 0x00000000)

/-- R106: SUBU. -/
def Obligations.SubuResult : Prop :=
  ∀ (rd rs rt : Reg) (s : State), s.launch.mode64 = false →
    decodeWord (0b000000#6 ++ rs ++ rt ++ rd ++ 0b00000#5 ++ 0b100011#6) = .instr (.subu rd rs rt) ∧
    ∃ t, exec (.subu rd rs rt) s = .next t ∧ Advances s t ∧
      WritesWord s t rd (BitVec.ofInt 32 ((s.x rs).toNat - (s.x rt).toNat))

/-! ### Logic and constants (41_logical.md), in the normative 32-bit mode -/

/-- R121, R124, R125: AND, NOR and OR, bit by bit. -/
def Obligations.RegisterLogicResults : Prop :=
  ∀ (rd rs rt : Reg) (s : State), s.launch.mode64 = false →
    decodeWord (0b000000#6 ++ rs ++ rt ++ rd ++ 0b00000#5 ++ 0b100100#6) = .instr (.and rd rs rt) ∧
    decodeWord (0b000000#6 ++ rs ++ rt ++ rd ++ 0b00000#5 ++ 0b100111#6) = .instr (.nor rd rs rt) ∧
    decodeWord (0b000000#6 ++ rs ++ rt ++ rd ++ 0b00000#5 ++ 0b100101#6) = .instr (.or rd rs rt) ∧
    (∃ t v, exec (.and rd rs rt) s = .next t ∧ Advances s t ∧ WritesWord s t rd v ∧
      ∀ k < 32, v.getLsbD k = ((s.x rs).getLsbD k && (s.x rt).getLsbD k)) ∧
    (∃ t v, exec (.nor rd rs rt) s = .next t ∧ Advances s t ∧ WritesWord s t rd v ∧
      ∀ k < 32, v.getLsbD k = !((s.x rs).getLsbD k || (s.x rt).getLsbD k)) ∧
    (∃ t v, exec (.or rd rs rt) s = .next t ∧ Advances s t ∧ WritesWord s t rd v ∧
      ∀ k < 32, v.getLsbD k = ((s.x rs).getLsbD k || (s.x rt).getLsbD k))

/-- R122, R126: ANDI and ORI, bit by bit, with the zero-extended immediate. -/
def Obligations.ImmediateLogicResults : Prop :=
  ∀ (rt rs : Reg) (imm : Imm16) (s : State), s.launch.mode64 = false →
    decodeWord (0b001100#6 ++ rs ++ rt ++ imm) = .instr (.andi rt rs imm) ∧
    decodeWord (0b001101#6 ++ rs ++ rt ++ imm) = .instr (.ori rt rs imm) ∧
    (∃ t v, exec (.andi rt rs imm) s = .next t ∧ Advances s t ∧ WritesWord s t rt v ∧
      ∀ k < 32, v.getLsbD k = (decide (k < 16) && ((s.x rs).getLsbD k && imm.getLsbD k))) ∧
    (∃ t v, exec (.ori rt rs imm) s = .next t ∧ Advances s t ∧ WritesWord s t rt v ∧
      ∀ k < 32, v.getLsbD k = ((s.x rs).getLsbD k || (decide (k < 16) && imm.getLsbD k)))

/-- R123: LUI. -/
def Obligations.LuiResult : Prop :=
  ∀ (rt : Reg) (imm : Imm16) (s : State), s.launch.mode64 = false →
    decodeWord (0b001111#6 ++ 0b00000#5 ++ rt ++ imm) = .instr (.lui rt imm) ∧
    ∃ t, exec (.lui rt imm) s = .next t ∧ Advances s t ∧
      WritesWord s t rt (BitVec.ofNat 32 (imm.toNat * 2 ^ 16))

/-! ### Shifts (45_shift.md), in the normative 32-bit mode -/

/-- R181, R182: SLL multiplies by `2 ^ sa` modulo 2^32, SRL divides by it, rounding down. -/
def Obligations.ShiftResults : Prop :=
  ∀ (rd rt : Reg) (sa : Shamt) (s : State), s.launch.mode64 = false →
    decodeWord (0b000000#6 ++ 0b00000#5 ++ rt ++ rd ++ sa ++ 0b000000#6) = .instr (.sll rd rt sa) ∧
    decodeWord (0b000000#6 ++ 0b00000#5 ++ rt ++ rd ++ sa ++ 0b000010#6) = .instr (.srl rd rt sa) ∧
    (∃ t, exec (.sll rd rt sa) s = .next t ∧ Advances s t ∧
      WritesWord s t rd (BitVec.ofNat 32 ((s.x rt).toNat * 2 ^ sa.toNat))) ∧
    (∃ t, exec (.srl rd rt sa) s = .next t ∧ Advances s t ∧
      WritesWord s t rd (BitVec.ofNat 32 ((s.x rt).toNat / 2 ^ sa.toNat)))

/-- R183: the all-zero word is `SLL $0, $0, 0`, whose whole effect is the common sequencing, in MODE64 in the model's address
width (log 11). -/
def Obligations.NopOnlyAdvances : Prop :=
  decodeWord 0x00000000 = .instr nop ∧
  ∀ s : State, ∃ t, exec nop s = .next t ∧ Advances s t ∧ KeepsRegisters s t ∧ KeepsRest s t

/-! ### Control transfer (42_control_transfer.md), in the normative 32-bit mode -/

/-- R143, R144: BEQ and BNE, outside a delay slot. -/
def Obligations.BranchResults : Prop :=
  ∀ (rs rt : Reg) (offset : Imm16) (s : State), s.launch.mode64 = false → s.ds = false →
    decodeWord (0b000100#6 ++ rs ++ rt ++ offset) = .instr (.beq rs rt offset) ∧
    decodeWord (0b000101#6 ++ rs ++ rt ++ offset) = .instr (.bne rs rt offset) ∧
    (∃ t, exec (.beq rs rt offset) s = .next t ∧ KeepsRegisters s t ∧ KeepsRest s t ∧
      Transfers s t (s.x rs = s.x rt) ((s.pc.toNat + 4 + 4 * offset.toInt) % 2 ^ 32).toNat) ∧
    (∃ t, exec (.bne rs rt offset) s = .next t ∧ KeepsRegisters s t ∧ KeepsRest s t ∧
      Transfers s t (s.x rs ≠ s.x rt) ((s.pc.toNat + 4 + 4 * offset.toInt) % 2 ^ 32).toNat)

/-- R145: J, outside a delay slot; the region is that of the delay slot's address (R68). -/
def Obligations.JumpResult : Prop :=
  ∀ (target : Target26) (s : State), s.launch.mode64 = false → s.ds = false →
    decodeWord (0b000010#6 ++ target) = .instr (.j target) ∧
    ∃ t, exec (.j target) s = .next t ∧ KeepsRegisters s t ∧ KeepsRest s t ∧
      Transfers s t True ((s.pc.toNat + 4) % 2 ^ 32 / 2 ^ 28 * 2 ^ 28 + 4 * target.toNat)

/-- R146: JAL, outside a delay slot: a J that also writes `pc + 8` to register 31. -/
def Obligations.JumpAndLinkResult : Prop :=
  ∀ (target : Target26) (s : State), s.launch.mode64 = false → s.ds = false →
    decodeWord (0b000011#6 ++ target) = .instr (.jal target) ∧
    ∃ t, exec (.jal target) s = .next t ∧ WritesWord s t 31 (BitVec.ofNat 32 (s.pc.toNat + 8)) ∧
      Transfers s t True ((s.pc.toNat + 4) % 2 ^ 32 / 2 ^ 28 * 2 ^ 28 + 4 * target.toNat)

/-- R147: JR, outside a delay slot: the whole register is the target. It raises nothing itself; where its two low bits are
not both zero, the slot executes and the step after it raises `AddressError(fetch, target)`. -/
def Obligations.JumpRegisterResult : Prop :=
  ∀ (rs : Reg) (s : State), s.launch.mode64 = false → s.ds = false →
    decodeWord (0b000000#6 ++ rs ++ 0b00000#5 ++ 0b00000#5 ++ 0b00000#5 ++ 0b001000#6) = .instr (.jr rs) ∧
    ∃ t, exec (.jr rs) s = .next t ∧ KeepsRegisters s t ∧ KeepsRest s t ∧ Transfers s t True (s.x rs).toNat ∧
      ∀ u, step t = .next u → (s.x rs).toNat % 4 ≠ 0 → wordAligned s.launch.endAddr = true →
        step u = .fault (.raised (.addressError .fetch (wordAddress (s.x rs))) (wordAddress (s.x rs)))

/-- R148: a control transfer in a delay slot is refused, in either mode and whatever its operands. -/
def Obligations.TransferInDelaySlotRefused : Prop :=
  ∀ (i : Instr) (s : State), i.isTransfer = true → s.ds = true →
    exec i s = .refused (.controlTransferInDelaySlot s.pcAddr)

/-- R141, R27: a transfer at `A` is followed by the instruction at `A + 4`, executed once, and then by the one the transfer
left in `npc`: its target, or `A + 8` for a branch not taken. In either mode; in MODE64 `pc + 4` is in as many bits as the
open address width gives (log 11) and the branches compare all 64 bits (log 17). -/
def Obligations.DelaySlotExecutesBeforeTheTarget : Prop :=
  ∀ (i : Instr) (s t u : State), i.isTransfer = true →
    (s.ds = false → s.npcAddr.toNat = (s.pcAddr.toNat + 4) % 2 ^ s.alen) → exec i s = .next t → step t = .next u →
    t.pcAddr.toNat = (s.pcAddr.toNat + 4) % 2 ^ s.alen ∧ t.ds = true ∧ u.pcAddr = t.npcAddr ∧
    u.npcAddr.toNat = (t.npcAddr.toNat + 4) % 2 ^ s.alen ∧ u.ds = false ∧
    (∀ rs rt offset,
      i = .beq rs rt offset ∧ ¬(if s.launch.mode64 then s.x64 rs = s.x64 rt else s.x rs = s.x rt) ∨
      i = .bne rs rt offset ∧ (if s.launch.mode64 then s.x64 rs = s.x64 rt else s.x rs = s.x rt) →
      u.pcAddr.toNat = (s.pcAddr.toNat + 8) % 2 ^ s.alen)

/-! ### Loads and stores (44_load_store.md), in the normative 32-bit mode -/

/-- R171: LW. -/
def Obligations.LoadWordResult : Prop :=
  ∀ (rt : Reg) (offset : Imm16) (base : Reg) (s : State), s.launch.mode64 = false →
    decodeWord (0b100011#6 ++ base ++ rt ++ offset) = .instr (.lw rt offset base) ∧
    ((s.effectiveAddress base offset).toNat : Int) = ((s.x base).toNat + offset.toInt) % 2 ^ 32 ∧
    ((s.effectiveAddress base offset).toNat % 4 ≠ 0 →
      exec (.lw rt offset base) s =
        .fault (.raised (.addressError .load (s.effectiveAddress base offset)) s.pcAddr)) ∧
    ((s.effectiveAddress base offset).toNat % 4 = 0 → ∀ w, s.memRead (s.effectiveAddress base offset) = some w →
      ∃ t, exec (.lw rt offset base) s = .next t ∧ Advances s t ∧ WritesWord s t rt w) ∧
    ((s.effectiveAddress base offset).toNat % 4 = 0 → s.memRead (s.effectiveAddress base offset) = none →
      exec (.lw rt offset base) s = .refused (.unallocatedAccess (s.effectiveAddress base offset)))

/-- R172: SW. -/
def Obligations.StoreWordResult : Prop :=
  ∀ (rt : Reg) (offset : Imm16) (base : Reg) (s : State), s.launch.mode64 = false →
    decodeWord (0b101011#6 ++ base ++ rt ++ offset) = .instr (.sw rt offset base) ∧
    ((s.effectiveAddress base offset).toNat : Int) = ((s.x base).toNat + offset.toInt) % 2 ^ 32 ∧
    ((s.effectiveAddress base offset).toNat % 4 ≠ 0 →
      exec (.sw rt offset base) s =
        .fault (.raised (.addressError .store (s.effectiveAddress base offset)) s.pcAddr)) ∧
    ((s.effectiveAddress base offset).toNat % 4 = 0 → s.inText (s.effectiveAddress base offset) = true →
      exec (.sw rt offset base) s = .refused (.storeToText (s.effectiveAddress base offset))) ∧
    ((s.effectiveAddress base offset).toNat % 4 = 0 → s.inText (s.effectiveAddress base offset) = false →
      s.memRead (s.effectiveAddress base offset) = none →
      exec (.sw rt offset base) s = .refused (.unallocatedAccess (s.effectiveAddress base offset))) ∧
    ((s.effectiveAddress base offset).toNat % 4 = 0 → s.inText (s.effectiveAddress base offset) = false →
      s.memRead (s.effectiveAddress base offset) ≠ none →
      ∃ t, exec (.sw rt offset base) s = .next t ∧ Advances s t ∧
        StoresWord s t (s.effectiveAddress base offset) (s.x rt))

/-- R51: a load from the address of the store before it returns the word stored, whatever register and offset form that
address. -/
def Obligations.LoadReturnsTheLastStore : Prop :=
  ∀ (rt : Reg) (offset : Imm16) (base dst : Reg) (offset' : Imm16) (base' : Reg) (s t : State),
    s.launch.mode64 = false → exec (.sw rt offset base) s = .next t →
    t.effectiveAddress base' offset' = s.effectiveAddress base offset →
    ∃ u, exec (.lw dst offset' base') t = .next u ∧ WritesWord t u dst (s.x rt)

/-- R40: which byte of a word lies at which address, in both byte orders. -/
def Obligations.ByteOrderOfAWord : Prop :=
  ∀ (s : State) (a : Addr) (w : Word), s.memRead a = some w →
    (s.launch.endian = .big →
      Memory.readByte s.mem a.toNat = some (w.extractLsb' 24 8) ∧
      Memory.readByte s.mem (a.toNat + 1) = some (w.extractLsb' 16 8) ∧
      Memory.readByte s.mem (a.toNat + 2) = some (w.extractLsb' 8 8) ∧
      Memory.readByte s.mem (a.toNat + 3) = some (w.extractLsb' 0 8)) ∧
    (s.launch.endian = .little →
      Memory.readByte s.mem a.toNat = some (w.extractLsb' 0 8) ∧
      Memory.readByte s.mem (a.toNat + 1) = some (w.extractLsb' 8 8) ∧
      Memory.readByte s.mem (a.toNat + 2) = some (w.extractLsb' 16 8) ∧
      Memory.readByte s.mem (a.toNat + 3) = some (w.extractLsb' 24 8))

/-- R40: no program can observe the byte order: two states with the same words, each laid out in its own order, step alike. -/
def Obligations.ByteOrderIsUnobservable : Prop :=
  ∀ s t : State, SameWords s t → SameOutcome (step s) (step t)

/-! ### Over all instructions -/

/-- R203, R205, R206: which instruction raises what, and when: nothing else ends in a fault. The outcome carries the `pc`
of the instruction. Two clauses go beyond those rules in MODE64: that ADD and ADDI raise nothing on operands that are no
valid sign-extended 32-bit values is the model's choice under R36 (log 12, DESIGN CHOICE), and the address of LW and SW is
the model's reading of R35 (log 13, DEDUCED). -/
def Obligations.ExceptionsAreExactlyThese : Prop :=
  ∀ (i : Instr) (s : State) (f : Fault), exec i s = .fault f ↔
    (f = .raised .overflow s.pcAddr ∧
      ((∃ rd rs rt, i = .add rd rs rt ∧ s.operandsValid [rs, rt] = true ∧ addOverflows (s.x rs) (s.x rt) = true) ∨
       ∃ rt rs imm, i = .addi rt rs imm ∧ s.operandsValid [rs] = true ∧
        addOverflows (s.x rs) (BitVec.ofInt 32 imm.toInt) = true)) ∨
    (∃ rt offset base, i = .lw rt offset base ∧ (s.effectiveAddress base offset).toNat % 4 ≠ 0 ∧
      f = .raised (.addressError .load (s.effectiveAddress base offset)) s.pcAddr) ∨
    (∃ rt offset base, i = .sw rt offset base ∧ (s.effectiveAddress base offset).toNat % 4 ≠ 0 ∧
      f = .raised (.addressError .store (s.effectiveAddress base offset)) s.pcAddr)

/-- R209: the refusals of a step are the five of the list, each exactly where its rule says: the fetch outside the text
(R26 step 3), a word outside the table (step 5), a transfer with `ds = 1` (step 6), an LW or SW at an aligned address that
memory does not hold (R43, R44), an SW at an aligned address in the text (R53). A fetch inside the text of a word that
memory does not hold is refused by R43 too; no launched machine reaches such a state (log 21, DEDUCED). In MODE64 the
address of LW and SW is the model's reading of R35 (log 13, DEDUCED). -/
def Obligations.RefusalsAreOnlyThese : Prop :=
  ∀ (s : State) (r : Refusal), step s = .refused r ↔
    (r = .fetchOutsideText s.pcAddr ∧ ¬(s.pcAddr = s.launch.endAddr ∧ s.ds = false) ∧ s.pcAddr.toNat % 4 = 0 ∧
      (s.pcAddr.toNat < s.launch.textBase.toNat ∨
        s.launch.textBase.toNat + 4 * s.launch.textLen ≤ s.pcAddr.toNat)) ∨
    (r = .unallocatedAccess s.pcAddr ∧ ¬(s.pcAddr = s.launch.endAddr ∧ s.ds = false) ∧ s.pcAddr.toNat % 4 = 0 ∧
      s.launch.textBase.toNat ≤ s.pcAddr.toNat ∧
      s.pcAddr.toNat < s.launch.textBase.toNat + 4 * s.launch.textLen ∧ s.memRead s.pcAddr = none) ∨
    (∃ w, Fetches s w ∧ r = .reservedEncoding s.pcAddr w ∧ ∀ row ∈ encodingTable, w &&& row.mask ≠ row.bits) ∨
    (∃ w i, Fetches s w ∧ decodeWord w = .instr i ∧ r = .controlTransferInDelaySlot s.pcAddr ∧
      i.isTransfer = true ∧ s.ds = true) ∨
    (∃ w rt offset base, Fetches s w ∧
      (decodeWord w = .instr (.lw rt offset base) ∨
        decodeWord w = .instr (.sw rt offset base) ∧ s.inText (s.effectiveAddress base offset) = false) ∧
      r = .unallocatedAccess (s.effectiveAddress base offset) ∧ (s.effectiveAddress base offset).toNat % 4 = 0 ∧
      s.memRead (s.effectiveAddress base offset) = none) ∨
    (∃ w rt offset base, Fetches s w ∧ decodeWord w = .instr (.sw rt offset base) ∧
      r = .storeToText (s.effectiveAddress base offset) ∧ (s.effectiveAddress base offset).toNat % 4 = 0 ∧
      s.inText (s.effectiveAddress base offset) = true)

/-- R38: an instruction changes no register outside the `W` column of the table, in either mode; R22: register 0 reads as
zero after it, as before. -/
def Obligations.OnlyTheDestinationChanges : Prop :=
  ∀ (i : Instr) (s t : State), exec i s = .next t → (∀ r, r ∉ i.writes → t.x64 r = s.x64 r) ∧ t.x64 0 = 0

/-- R38: what a register outside the `R` column holds plays no part: the outcome is the same with any other value in it,
that value being kept unless the instruction writes the register. -/
def Obligations.UnreadRegistersPlayNoPart : Prop :=
  ∀ (i : Instr) (s : State) (q : Reg) (v : Word) (d : DWord), q ∉ i.reads →
    exec i (s.setFull q v d) = mapNext (fun t => if q ∈ i.writes then t else t.setFull q v d) (exec i s)

/-- R44, R45: only SW changes memory. -/
def Obligations.OnlyStoreWordChangesMemory : Prop :=
  ∀ (i : Instr) (s t : State), (∀ rt offset base, i ≠ .sw rt offset base) → exec i s = .next t →
    t.mem = s.mem ∧ t.launch = s.launch

/-! ### The assembler's part (43_pseudo_la.md, R82) -/

/-- R160, R161: the expansion of LA leaves the address in `rt` and changes no other register; one instruction exactly when
the low half of the address is zero. -/
def Obligations.LaLeavesTheAddress : Prop :=
  ∀ (rt : Reg) (a : Word) (s : State), s.launch.mode64 = false →
    (∃ t, execAll (expandLa rt a) s = .next t ∧ WritesWord s t rt a ∧ t.ds = false) ∧
    (a.toNat % 2 ^ 16 = 0 → expandLa rt a = [.lui rt (BitVec.ofNat 16 (a.toNat / 2 ^ 16))]) ∧
    (a.toNat % 2 ^ 16 ≠ 0 →
      expandLa rt a = [.lui rt (BitVec.ofNat 16 (a.toNat / 2 ^ 16)), .ori rt rt (BitVec.ofNat 16 a.toNat)])

/-- R82, R67, R68: which labels and constants the assembler accepts, exactly the ranges of R82; an assembled branch or jump
reaches its label, and an assembled constant is the number written. -/
def Obligations.AssembledOperandsMeanTheirLabels : Prop :=
  (∀ a l : Word, (branchOffsetTo a l).isSome = true ↔
    (l - (a + 4)).toInt % 4 = 0 ∧ -131072 ≤ (l - (a + 4)).toInt ∧ (l - (a + 4)).toInt ≤ 131068) ∧
  (∀ a l : Word, (jumpFieldTo a l).isSome = true ↔
    l.toNat % 4 = 0 ∧ l.toNat / 2 ^ 28 = (a + 4).toNat / 2 ^ 28) ∧
  (∀ n : Int, (signedConstant n).isSome = true ↔ -32768 ≤ n ∧ n ≤ 32767) ∧
  (∀ n : Nat, (unsignedConstant n).isSome = true ↔ n ≤ 65535) ∧
  (∀ n : Nat, (shiftConstant n).isSome = true ↔ n ≤ 31) ∧
  (∀ (s : State) (l : Word) (offset : Imm16), s.launch.mode64 = false → branchOffsetTo s.pc l = some offset →
    (s.branchTarget offset).toNat = l.toNat) ∧
  (∀ (s : State) (l : Word) (target : Target26), s.launch.mode64 = false → jumpFieldTo s.pc l = some target →
    (s.jumpTarget target).toNat = l.toNat) ∧
  (∀ (n : Int) (imm : Imm16), signedConstant n = some imm → (signedImm imm).toInt = n) ∧
  (∀ (n : Nat) (imm : Imm16), unsignedConstant n = some imm → (zeroImm imm).toNat = n) ∧
  (∀ (n : Nat) (sa : Shamt), shiftConstant n = some sa → sa.toNat = n)

/-! ### The MODE64 annex (10_state.md R33 to R36)

In every statement of this section the advance of `pc` and `npc` is in as many bits as an address has: the open width of
R35, whose range and wrap are the model's choice (log 11, DESIGN CHOICE). -/

/-- R35: ADDIU, ADDU, SUBU and SRL on valid operands: the 32-bit result, sign-extended (log 16). -/
def Obligations.Mode64WordResults : Prop :=
  ∀ (d a b : Reg) (imm : Imm16) (sa : Shamt) (s : State), s.launch.mode64 = true → validWord (s.x64 a) = true →
    (∃ t, exec (.addiu d a imm) s = .next t ∧ Advances s t ∧
      WritesDWord s t d (BitVec.ofInt 64 (BitVec.ofInt 32 ((s.x a).toInt + imm.toInt)).toInt)) ∧
    (∃ t, exec (.srl d a sa) s = .next t ∧ Advances s t ∧
      WritesDWord s t d (BitVec.ofInt 64 (BitVec.ofNat 32 ((s.x a).toNat / 2 ^ sa.toNat)).toInt)) ∧
    (validWord (s.x64 b) = true →
      (∃ t, exec (.addu d a b) s = .next t ∧ Advances s t ∧
        WritesDWord s t d (BitVec.ofInt 64 (BitVec.ofNat 32 ((s.x a).toNat + (s.x b).toNat)).toInt)) ∧
      (∃ t, exec (.subu d a b) s = .next t ∧ Advances s t ∧
        WritesDWord s t d (BitVec.ofInt 64 (BitVec.ofInt 32 ((s.x a).toNat - (s.x b).toNat)).toInt)))

/-- R35: ADD and ADDI on valid operands: the overflow test is on bits 30 and 31, the result sign-extended (log 16). -/
def Obligations.Mode64CheckedSums : Prop :=
  ∀ (d a b : Reg) (imm : Imm16) (s : State), s.launch.mode64 = true → validWord (s.x64 a) = true →
    (-2 ^ 31 ≤ (s.x a).toInt + imm.toInt ∧ (s.x a).toInt + imm.toInt < 2 ^ 31 →
      ∃ t, exec (.addi d a imm) s = .next t ∧ Advances s t ∧
        WritesDWord s t d (BitVec.ofInt 64 ((s.x a).toInt + imm.toInt))) ∧
    (¬(-2 ^ 31 ≤ (s.x a).toInt + imm.toInt ∧ (s.x a).toInt + imm.toInt < 2 ^ 31) →
      exec (.addi d a imm) s = .fault (.raised .overflow s.pcAddr)) ∧
    (validWord (s.x64 b) = true →
      (-2 ^ 31 ≤ (s.x a).toInt + (s.x b).toInt ∧ (s.x a).toInt + (s.x b).toInt < 2 ^ 31 →
        ∃ t, exec (.add d a b) s = .next t ∧ Advances s t ∧
          WritesDWord s t d (BitVec.ofInt 64 ((s.x a).toInt + (s.x b).toInt))) ∧
      (¬(-2 ^ 31 ≤ (s.x a).toInt + (s.x b).toInt ∧ (s.x a).toInt + (s.x b).toInt < 2 ^ 31) →
        exec (.add d a b) s = .fault (.raised .overflow s.pcAddr)))

/-- R36: an invalid operand of ADD, ADDI, ADDIU, ADDU, SUBU or SRL: the destination gets the next free value, whatever it
is, and everything else happens as usual (the model's choice between R36's two, log 12). -/
def Obligations.Mode64InvalidOperands : Prop :=
  ∀ (d a b : Reg) (imm : Imm16) (sa : Shamt) (i : Instr) (s : State), s.launch.mode64 = true →
    (validWord (s.x64 a) = false ∧ (i = .addi d a imm ∨ i = .addiu d a imm ∨ i = .srl d a sa) ∨
      (validWord (s.x64 a) = false ∨ validWord (s.x64 b) = false) ∧
        (i = .add d a b ∨ i = .addu d a b ∨ i = .subu d a b)) →
    ∃ t, exec i s = .next t ∧ Advances s t ∧
      t.x64 d = (if d = 0 then 0 else Config.anyValue64 s.draws) ∧ (∀ r, r ≠ d → t.x64 r = s.x64 r) ∧
      (∀ c, Memory.readByte t.mem c = Memory.readByte s.mem c) ∧ t.launch = s.launch ∧ t.draws = s.draws + 1

/-- R35: LUI, SLL and LW write the sign-extended 32-bit result, SLL whatever its operand's upper half holds; LW takes it
from base plus offset in as many bits as an address has (log 11, 13). -/
def Obligations.Mode64SignExtendedResults : Prop :=
  ∀ (d a : Reg) (imm : Imm16) (sa : Shamt) (s : State), s.launch.mode64 = true →
    (∃ t, exec (.lui d imm) s = .next t ∧ Advances s t ∧
      WritesDWord s t d (BitVec.ofInt 64 (imm.toInt * 2 ^ 16))) ∧
    (∃ t, exec (.sll d a sa) s = .next t ∧ Advances s t ∧
      WritesDWord s t d (BitVec.ofInt 64 (BitVec.ofNat 32 ((s.x64 a).toNat % 2 ^ 32 * 2 ^ sa.toNat)).toInt)) ∧
    ((s.effectiveAddress a imm).toNat : Int) = ((s.x64 a).toNat + imm.toInt) % 2 ^ s.alen ∧
    ((s.effectiveAddress a imm).toNat % 4 = 0 → ∀ w, s.memRead (s.effectiveAddress a imm) = some w →
      ∃ t, exec (.lw d imm a) s = .next t ∧ Advances s t ∧ WritesDWord s t d (BitVec.ofInt 64 w.toInt))

/-- R35: AND, ANDI, OR, ORI, NOR and SLTU work on all 64 bits, the immediate zero-extended (log 17). -/
def Obligations.Mode64WholeRegisterResults : Prop :=
  ∀ (d a b : Reg) (imm : Imm16) (s : State), s.launch.mode64 = true →
    (∃ t, exec (.and d a b) s = .next t ∧ Advances s t ∧ WritesDWord s t d (s.x64 a &&& s.x64 b)) ∧
    (∃ t, exec (.or d a b) s = .next t ∧ Advances s t ∧ WritesDWord s t d (s.x64 a ||| s.x64 b)) ∧
    (∃ t, exec (.nor d a b) s = .next t ∧ Advances s t ∧ WritesDWord s t d (~~~(s.x64 a ||| s.x64 b))) ∧
    (∃ t, exec (.andi d a imm) s = .next t ∧ Advances s t ∧
      WritesDWord s t d (s.x64 a &&& BitVec.ofNat 64 imm.toNat)) ∧
    (∃ t, exec (.ori d a imm) s = .next t ∧ Advances s t ∧
      WritesDWord s t d (s.x64 a ||| BitVec.ofNat 64 imm.toNat)) ∧
    (∃ t, exec (.sltu d a b) s = .next t ∧ Advances s t ∧
      ((s.x64 a).toNat < (s.x64 b).toNat → WritesDWord s t d 1) ∧
      ((s.x64 b).toNat ≤ (s.x64 a).toNat → WritesDWord s t d 0))

/-- R35: in MODE64 the five transfers complete outside a delay slot. BEQ and BNE compare all 64 bits (log 17); the targets
of BEQ, BNE and JR are the normative ones in as many bits as an address has (log 11, 14); the high-order bits of the target
of J and JAL, and the bits of the link value above the width of an address, are open parameters (log 14). -/
def Obligations.Mode64Transfers : Prop :=
  ∀ (rs rt : Reg) (offset : Imm16) (target : Target26) (s : State), s.launch.mode64 = true → s.ds = false →
    (∃ t, exec (.beq rs rt offset) s = .next t ∧ KeepsRegisters s t ∧ KeepsRest s t ∧
      Transfers s t (s.x64 rs = s.x64 rt) ((s.pcAddr.toNat + 4 + 4 * offset.toInt) % 2 ^ s.alen).toNat) ∧
    (∃ t, exec (.bne rs rt offset) s = .next t ∧ KeepsRegisters s t ∧ KeepsRest s t ∧
      Transfers s t (s.x64 rs ≠ s.x64 rt) ((s.pcAddr.toNat + 4 + 4 * offset.toInt) % 2 ^ s.alen).toNat) ∧
    (∃ t g, exec (.j target) s = .next t ∧ KeepsRegisters s t ∧ KeepsRest s t ∧
      Transfers s t True g ∧ g % 2 ^ 28 = 4 * target.toNat ∧ g < 2 ^ s.alen) ∧
    (∃ t g, exec (.jal target) s = .next t ∧ (t.x64 31).toNat % 2 ^ s.alen = (s.pcAddr.toNat + 8) % 2 ^ s.alen ∧
      (∀ r, r ≠ 31 → t.x64 r = s.x64 r) ∧ KeepsRest s t ∧
      Transfers s t True g ∧ g % 2 ^ 28 = 4 * target.toNat ∧ g < 2 ^ s.alen) ∧
    (∃ t, exec (.jr rs) s = .next t ∧ KeepsRegisters s t ∧ KeepsRest s t ∧
      Transfers s t True ((s.x64 rs).toNat % 2 ^ s.alen))

/-- R35, R172: SW in MODE64 stores one word, an open parameter of the register (log 15), at base plus offset in as many bits
as an address has (log 11, 13). -/
def Obligations.Mode64StoreWord : Prop :=
  ∀ (rt : Reg) (offset : Imm16) (base : Reg) (s : State), s.launch.mode64 = true →
    ((s.effectiveAddress base offset).toNat : Int) = ((s.x64 base).toNat + offset.toInt) % 2 ^ s.alen ∧
    ((s.effectiveAddress base offset).toNat % 4 = 0 → s.inText (s.effectiveAddress base offset) = false →
      s.memRead (s.effectiveAddress base offset) ≠ none →
      ∃ t, exec (.sw rt offset base) s = .next t ∧ Advances s t ∧
        StoresWord s t (s.effectiveAddress base offset) (Config.storedWord64 (s.x64 rt)))
end

