-- ==== Sys2Proof/Laws/Encoding.lean ====
section
/-! SUPPORT. The fields of encoded words, and words rebuilt from their fields: what every proof about the encoding cites. -/

namespace Sys2Proof.Laws

theorem toNat_encodeR (rs rt rd : Reg) (sa : Shamt) (f : BitVec 6) :
    (encodeR rs rt rd sa f).toNat =
      rs.toNat * 2 ^ 21 + rt.toNat * 2 ^ 16 + rd.toNat * 2 ^ 11 + sa.toNat * 2 ^ 6 + f.toNat := by
  refine (toNat_concat (0#6 ++ rs ++ rt ++ rd ++ sa) f).trans ?_
  simp only [toNat_concat, BitVec.toNat_zero]
  omega

theorem toNat_encodeI (op : BitVec 6) (rs rt : Reg) (imm : Imm16) :
    (encodeI op rs rt imm).toNat = op.toNat * 2 ^ 26 + rs.toNat * 2 ^ 21 + rt.toNat * 2 ^ 16 + imm.toNat := by
  refine (toNat_concat (op ++ rs ++ rt) imm).trans ?_
  simp only [toNat_concat]
  omega

theorem toNat_encodeJ (op : BitVec 6) (target : Target26) :
    (encodeJ op target).toNat = op.toNat * 2 ^ 26 + target.toNat :=
  toNat_concat op target

section
variable (rs rt rd : Reg) (sa : Shamt) (f op : BitVec 6) (imm : Imm16) (target : Target26)

@[simp] theorem fieldOpcode_encodeR : fieldOpcode (encodeR rs rt rd sa f) = 0 := by
  apply BitVec.eq_of_toNat_eq
  rw [fieldOpcode, toNat_field, toNat_encodeR]
  show _ = 0
  omega

@[simp] theorem fieldRs_encodeR : fieldRs (encodeR rs rt rd sa f) = rs := by
  apply BitVec.eq_of_toNat_eq
  rw [fieldRs, toNat_field, toNat_encodeR]
  omega

@[simp] theorem fieldRt_encodeR : fieldRt (encodeR rs rt rd sa f) = rt := by
  apply BitVec.eq_of_toNat_eq
  rw [fieldRt, toNat_field, toNat_encodeR]
  omega

@[simp] theorem fieldRd_encodeR : fieldRd (encodeR rs rt rd sa f) = rd := by
  apply BitVec.eq_of_toNat_eq
  rw [fieldRd, toNat_field, toNat_encodeR]
  omega

@[simp] theorem fieldSa_encodeR : fieldSa (encodeR rs rt rd sa f) = sa := by
  apply BitVec.eq_of_toNat_eq
  rw [fieldSa, toNat_field, toNat_encodeR]
  omega

@[simp] theorem fieldFunct_encodeR : fieldFunct (encodeR rs rt rd sa f) = f := by
  apply BitVec.eq_of_toNat_eq
  rw [fieldFunct, toNat_field, toNat_encodeR]
  omega

@[simp] theorem fieldOpcode_encodeI : fieldOpcode (encodeI op rs rt imm) = op := by
  apply BitVec.eq_of_toNat_eq
  rw [fieldOpcode, toNat_field, toNat_encodeI]
  omega

@[simp] theorem fieldRs_encodeI : fieldRs (encodeI op rs rt imm) = rs := by
  apply BitVec.eq_of_toNat_eq
  rw [fieldRs, toNat_field, toNat_encodeI]
  omega

@[simp] theorem fieldRt_encodeI : fieldRt (encodeI op rs rt imm) = rt := by
  apply BitVec.eq_of_toNat_eq
  rw [fieldRt, toNat_field, toNat_encodeI]
  omega

@[simp] theorem fieldImm_encodeI : fieldImm (encodeI op rs rt imm) = imm := by
  apply BitVec.eq_of_toNat_eq
  rw [fieldImm, toNat_field, toNat_encodeI]
  omega

@[simp] theorem fieldOpcode_encodeJ : fieldOpcode (encodeJ op target) = op := by
  apply BitVec.eq_of_toNat_eq
  rw [fieldOpcode, toNat_field, toNat_encodeJ]
  omega

@[simp] theorem fieldTarget_encodeJ : fieldTarget (encodeJ op target) = target := by
  apply BitVec.eq_of_toNat_eq
  rw [fieldTarget, toNat_field, toNat_encodeJ]
  omega

end

/-- A word whose opcode is 0 is its R-format fields. -/
theorem encodeR_fields (w : Word) (h : fieldOpcode w = 0) :
    encodeR (fieldRs w) (fieldRt w) (fieldRd w) (fieldSa w) (fieldFunct w) = w := by
  have h' := congrArg BitVec.toNat h
  rw [fieldOpcode, toNat_field] at h'
  have h0 : (0 : BitVec 6).toNat = 0 := rfl
  apply BitVec.eq_of_toNat_eq
  simp only [toNat_encodeR, fieldRs, fieldRt, fieldRd, fieldSa, fieldFunct, toNat_field]
  omega

/-- A word is its I-format fields. -/
theorem encodeI_fields (w : Word) : encodeI (fieldOpcode w) (fieldRs w) (fieldRt w) (fieldImm w) = w := by
  apply BitVec.eq_of_toNat_eq
  simp only [toNat_encodeI, fieldOpcode, fieldRs, fieldRt, fieldImm, toNat_field]
  omega

/-- A word is its J-format fields. -/
theorem encodeJ_fields (w : Word) : encodeJ (fieldOpcode w) (fieldTarget w) = w := by
  apply BitVec.eq_of_toNat_eq
  simp only [toNat_encodeJ, fieldOpcode, fieldTarget, toNat_field]
  omega

/-- Masking an R-format word masks its fields. -/
theorem encodeR_and (rs rt rd m1 m2 m3 : Reg) (sa m4 : Shamt) (f m0 m5 : BitVec 6) :
    encodeR rs rt rd sa f &&& (m0 ++ m1 ++ m2 ++ m3 ++ m4 ++ m5 : BitVec 32) =
      encodeR (rs &&& m1) (rt &&& m2) (rd &&& m3) (sa &&& m4) (f &&& m5) := by
  refine (BitVec.and_append (x₁ := 0#6 ++ rs ++ rt ++ rd ++ sa) (x₂ := m0 ++ m1 ++ m2 ++ m3 ++ m4)
    (y₁ := f) (y₂ := m5)).trans ?_
  simp only [BitVec.and_append, BitVec.zero_and]
  rfl

/-- Masking an I-format word masks its fields. -/
theorem encodeI_and (op m0 : BitVec 6) (rs rt m1 m2 : Reg) (imm m3 : Imm16) :
    encodeI op rs rt imm &&& (m0 ++ m1 ++ m2 ++ m3 : BitVec 32) =
      encodeI (op &&& m0) (rs &&& m1) (rt &&& m2) (imm &&& m3) := by
  refine (BitVec.and_append (x₁ := op ++ rs ++ rt) (x₂ := m0 ++ m1 ++ m2) (y₁ := imm) (y₂ := m3)).trans ?_
  simp only [BitVec.and_append]
  rfl

/-- Masking a J-format word masks its fields. -/
theorem encodeJ_and (op m0 : BitVec 6) (target m1 : Target26) :
    encodeJ op target &&& (m0 ++ m1 : BitVec 32) = encodeJ (op &&& m0) (target &&& m1) :=
  BitVec.and_append

/-- The mask of the three-register instructions, by fields (R72). -/
theorem mask_register : (0xFC0007FF : Word) = 0x3F#6 ++ 0#5 ++ 0#5 ++ 0#5 ++ 0x1F#5 ++ 0x3F#6 := by decide

/-- The mask of JR, by fields (R72). -/
theorem mask_jr : (0xFC1FFFFF : Word) = 0x3F#6 ++ 0#5 ++ 0x1F#5 ++ 0x1F#5 ++ 0x1F#5 ++ 0x3F#6 := by decide

/-- The mask of the shifts, by fields (R72). -/
theorem mask_shift : (0xFFE0003F : Word) = 0x3F#6 ++ 0x1F#5 ++ 0#5 ++ 0#5 ++ 0#5 ++ 0x3F#6 := by decide

/-- The mask of LUI, by fields (R72). -/
theorem mask_lui : (0xFFE00000 : Word) = 0x3F#6 ++ 0x1F#5 ++ 0#5 ++ 0#16 := by decide

/-- The mask of the other I-format instructions, by fields. -/
theorem mask_immediate : (0xFC000000 : Word) = 0x3F#6 ++ 0#5 ++ 0#5 ++ 0#16 := by decide

/-- The mask of the jumps, by fields. -/
theorem mask_jump : (0xFC000000 : Word) = 0x3F#6 ++ 0#26 := by decide

end Sys2Proof.Laws
end

