-- ==== Sys2Proof/Laws/Memory.lean ====
section
/-! SUPPORT. Reading after writing, the domain of the memory, and the canonical form, which every memory operation keeps. -/

namespace Sys2Proof.Machine

section
variable (m : List Host.Cell) (a c : Nat) (b : Byte)

@[simp] theorem readByte_writeByte_self : Memory.readByte (Memory.writeByte m a b) a = some b := by
  induction m with
  | nil => simp [Memory.writeByte, Memory.readByte]
  | cons cell m ih =>
    obtain ⟨k, d⟩ := cell
    simp only [Memory.writeByte]
    split
    · simp [Memory.readByte]
    · split
      · simp [Memory.readByte]
      · rename_i h
        simp [Memory.readByte, ih, Ne.symm h]

theorem readByte_writeByte_ne (h : c ≠ a) :
    Memory.readByte (Memory.writeByte m a b) c = Memory.readByte m c := by
  induction m with
  | nil => simp [Memory.writeByte, Memory.readByte, Ne.symm h]
  | cons cell m ih =>
    obtain ⟨k, d⟩ := cell
    simp only [Memory.writeByte]
    split
    · simp [Memory.readByte, Ne.symm h]
    · split
      · rename_i hk
        subst hk
        simp [Memory.readByte, Ne.symm h]
      · simp [Memory.readByte, ih]

theorem mem_writeByte {x : Host.Cell} (hx : x ∈ Memory.writeByte m a b) : x = (a, b) ∨ x ∈ m := by
  induction m with
  | nil => simpa [Memory.writeByte] using hx
  | cons cell m ih =>
    obtain ⟨k, d⟩ := cell
    simp only [Memory.writeByte] at hx
    split at hx
    · simpa using hx
    · split at hx
      · simp only [List.mem_cons] at hx ⊢
        tauto
      · simp only [List.mem_cons] at hx ⊢
        rcases hx with rfl | hx
        · simp
        · rcases ih hx with h | h <;> simp [h]

/-- Writing a byte keeps the canonical form. -/
theorem wf_writeByte (h : Memory.wf m) (ha : a < 2 ^ 64) : Memory.wf (Memory.writeByte m a b) := by
  refine ⟨?_, fun x hx => (mem_writeByte m a b hx).elim (fun e => e ▸ ha) (h.2 x)⟩
  obtain ⟨hp, -⟩ := h
  induction m with
  | nil => simp [Memory.writeByte]
  | cons cell m ih =>
    obtain ⟨k, d⟩ := cell
    simp only [Memory.writeByte]
    rw [List.pairwise_cons] at hp
    split
    · rename_i hk
      refine List.pairwise_cons.2 ⟨fun x hx => ?_, List.pairwise_cons.2 hp⟩
      rcases List.mem_cons.1 hx with rfl | hx
      · exact hk
      · exact hk.trans (hp.1 x hx)
    · split
      · rename_i hk
        subst hk
        exact List.pairwise_cons.2 ⟨fun x hx => hp.1 x hx, hp.2⟩
      · refine List.pairwise_cons.2 ⟨fun x hx => ?_, ih hp.2⟩
        rcases mem_writeByte m a b hx with rfl | hx
        · simp only
          omega
        · exact hp.1 x hx

end

/-- A word-aligned address leaves room for the four bytes of its word. -/
theorem aligned_toNat {a : Addr} (h : wordAligned a = true) : a.toNat % 4 = 0 := by
  have h' := congrArg BitVec.toNat (beq_iff_eq.1 h)
  rw [Laws.toNat_field] at h'
  simpa using h'

section
variable (e : Endian) (m : List Host.Cell) (a c : Addr) (v : Word)

/-- A word put together again from its bytes. -/
theorem bytesWord_wordBytes : (bytesWord e (wordBytes e v).1 (wordBytes e v).2.1 (wordBytes e v).2.2.1
    (wordBytes e v).2.2.2) = v := by
  have key : v.extractLsb' 24 8 ++ v.extractLsb' 16 8 ++ v.extractLsb' 8 8 ++ v.extractLsb' 0 8 = v := by
    apply BitVec.eq_of_toNat_eq
    refine (Laws.toNat_concat (v.extractLsb' 24 8 ++ v.extractLsb' 16 8 ++ v.extractLsb' 8 8)
      (v.extractLsb' 0 8)).trans ?_
    simp only [Laws.toNat_concat, Laws.toNat_field]
    omega
  cases e <;> exact key

/-- A byte outside the four of the word written is as before. -/
theorem readByte_writeWord_ne {b : Nat} (h : b < a.toNat ∨ a.toNat + 4 ≤ b) :
    Memory.readByte (Memory.writeWord e m a v) b = Memory.readByte m b := by
  unfold Memory.writeWord
  rw [readByte_writeByte_ne _ _ _ _ (by omega), readByte_writeByte_ne _ _ _ _ (by omega),
    readByte_writeByte_ne _ _ _ _ (by omega), readByte_writeByte_ne _ _ _ _ (by omega)]

/-- The four bytes of the word written, in order of address. -/
theorem readByte_writeWord_bytes :
    Memory.readByte (Memory.writeWord e m a v) a.toNat = some (wordBytes e v).1 ∧
    Memory.readByte (Memory.writeWord e m a v) (a.toNat + 1) = some (wordBytes e v).2.1 ∧
    Memory.readByte (Memory.writeWord e m a v) (a.toNat + 2) = some (wordBytes e v).2.2.1 ∧
    Memory.readByte (Memory.writeWord e m a v) (a.toNat + 3) = some (wordBytes e v).2.2.2 := by
  unfold Memory.writeWord
  refine ⟨?_, ?_, ?_, ?_⟩ <;> simp [readByte_writeByte_ne]

/-- A word read after it was written is the word written. -/
@[simp] theorem readWord_writeWord_self : Memory.readWord e (Memory.writeWord e m a v) a = some v := by
  obtain ⟨h0, h1, h2, h3⟩ := readByte_writeWord_bytes e m a v
  simp only [Memory.readWord, h0, h1, h2, h3, bytesWord_wordBytes]

/-- Another word-aligned word is as before. -/
theorem readWord_writeWord_ne (ha : wordAligned a = true) (hc : wordAligned c = true) (h : c ≠ a) :
    Memory.readWord e (Memory.writeWord e m a v) c = Memory.readWord e m c := by
  have ha' := aligned_toNat ha
  have hc' := aligned_toNat hc
  have hne : c.toNat ≠ a.toNat := fun he => h (BitVec.eq_of_toNat_eq he)
  unfold Memory.readWord
  rw [readByte_writeWord_ne e m a v (by omega), readByte_writeWord_ne e m a v (by omega),
    readByte_writeWord_ne e m a v (by omega), readByte_writeWord_ne e m a v (by omega)]

/-- A word is in memory exactly when its four bytes are. -/
theorem readWord_isSome : (Memory.readWord e m a).isSome = true ↔
    (Memory.readByte m a.toNat).isSome = true ∧ (Memory.readByte m (a.toNat + 1)).isSome = true ∧
    (Memory.readByte m (a.toNat + 2)).isSome = true ∧ (Memory.readByte m (a.toNat + 3)).isSome = true := by
  unfold Memory.readWord
  cases Memory.readByte m a.toNat <;> cases Memory.readByte m (a.toNat + 1) <;>
    cases Memory.readByte m (a.toNat + 2) <;> cases Memory.readByte m (a.toNat + 3) <;> simp

/-- Replacing a word that memory holds keeps the domain. -/
theorem writeWord_domain (h : (Memory.readWord e m a).isSome = true) (b : Nat) :
    (Memory.readByte (Memory.writeWord e m a v) b).isSome = (Memory.readByte m b).isSome := by
  obtain ⟨h0, h1, h2, h3⟩ := (readWord_isSome e m a).1 h
  obtain ⟨g0, g1, g2, g3⟩ := readByte_writeWord_bytes e m a v
  by_cases hb : b < a.toNat ∨ a.toNat + 4 ≤ b
  · rw [readByte_writeWord_ne e m a v hb]
  · obtain rfl | rfl | rfl | rfl : b = a.toNat ∨ b = a.toNat + 1 ∨ b = a.toNat + 2 ∨ b = a.toNat + 3 := by omega
    · rw [g0, h0]; rfl
    · rw [g1, h1]; rfl
    · rw [g2, h2]; rfl
    · rw [g3, h3]; rfl

/-- Writing a word-aligned word keeps the canonical form. -/
theorem wf_writeWord (h : Memory.wf m) (ha : wordAligned a = true) : Memory.wf (Memory.writeWord e m a v) := by
  have ha' := aligned_toNat ha
  have hlt := a.isLt
  unfold Memory.writeWord
  exact wf_writeByte _ _ _ (wf_writeByte _ _ _ (wf_writeByte _ _ _ (wf_writeByte _ _ _ h (by omega)) (by omega))
    (by omega)) (by omega)

/-- Filling memory with word-aligned words keeps the canonical form. -/
theorem wf_writeWords (h : Memory.wf m) (cells : List (Addr × Word))
    (ha : ∀ d ∈ cells, wordAligned d.1 = true) : Memory.wf (Memory.writeWords e m cells) := by
  induction cells with
  | nil => exact h
  | cons d rest ih =>
    exact wf_writeWord e _ d.1 d.2 (ih fun x hx => ha x (List.mem_cons_of_mem d hx)) (ha d List.mem_cons_self)

end

/-- The memory right after reset is in canonical form. -/
theorem wf_reset : Memory.wf State.reset.mem := by
  simp [State.reset, Memory.wf]

end Sys2Proof.Machine
end

