-- ==== Sys2Proof/Laws/State.lean ====
section
/-! SUPPORT. What each update of the state leaves in each field, and what the accessors read after it. -/

namespace Sys2Proof.Machine

section
variable (s : State) (r q : Reg) (v : Word) (d : DWord)

/-! ### Fields after a register write -/

@[simp] theorem setX_gprHi : (s.setX r v).gprHi = s.gprHi := by unfold State.setX; split <;> rfl
@[simp] theorem setX_pc : (s.setX r v).pc = s.pc := by unfold State.setX; split <;> rfl
@[simp] theorem setX_npc : (s.setX r v).npc = s.npc := by unfold State.setX; split <;> rfl
@[simp] theorem setX_pcHi : (s.setX r v).pcHi = s.pcHi := by unfold State.setX; split <;> rfl
@[simp] theorem setX_npcHi : (s.setX r v).npcHi = s.npcHi := by unfold State.setX; split <;> rfl
@[simp] theorem setX_ds : (s.setX r v).ds = s.ds := by unfold State.setX; split <;> rfl
@[simp] theorem setX_mem : (s.setX r v).mem = s.mem := by unfold State.setX; split <;> rfl
@[simp] theorem setX_launch : (s.setX r v).launch = s.launch := by unfold State.setX; split <;> rfl
@[simp] theorem setX_draws : (s.setX r v).draws = s.draws := by unfold State.setX; split <;> rfl

@[simp] theorem setHi_gpr : (s.setHi r v).gpr = s.gpr := by unfold State.setHi; split <;> rfl
@[simp] theorem setHi_pc : (s.setHi r v).pc = s.pc := by unfold State.setHi; split <;> rfl
@[simp] theorem setHi_npc : (s.setHi r v).npc = s.npc := by unfold State.setHi; split <;> rfl
@[simp] theorem setHi_pcHi : (s.setHi r v).pcHi = s.pcHi := by unfold State.setHi; split <;> rfl
@[simp] theorem setHi_npcHi : (s.setHi r v).npcHi = s.npcHi := by unfold State.setHi; split <;> rfl
@[simp] theorem setHi_ds : (s.setHi r v).ds = s.ds := by unfold State.setHi; split <;> rfl
@[simp] theorem setHi_mem : (s.setHi r v).mem = s.mem := by unfold State.setHi; split <;> rfl
@[simp] theorem setHi_launch : (s.setHi r v).launch = s.launch := by unfold State.setHi; split <;> rfl
@[simp] theorem setHi_draws : (s.setHi r v).draws = s.draws := by unfold State.setHi; split <;> rfl

@[simp] theorem setX64_pc : (s.setX64 r d).pc = s.pc := by simp [State.setX64]
@[simp] theorem setX64_npc : (s.setX64 r d).npc = s.npc := by simp [State.setX64]
@[simp] theorem setX64_pcHi : (s.setX64 r d).pcHi = s.pcHi := by simp [State.setX64]
@[simp] theorem setX64_npcHi : (s.setX64 r d).npcHi = s.npcHi := by simp [State.setX64]
@[simp] theorem setX64_ds : (s.setX64 r d).ds = s.ds := by simp [State.setX64]
@[simp] theorem setX64_mem : (s.setX64 r d).mem = s.mem := by simp [State.setX64]
@[simp] theorem setX64_launch : (s.setX64 r d).launch = s.launch := by simp [State.setX64]
@[simp] theorem setX64_draws : (s.setX64 r d).draws = s.draws := by simp [State.setX64]

@[simp] theorem setFull_pc : (s.setFull r v d).pc = s.pc := by unfold State.setFull; split <;> simp
@[simp] theorem setFull_npc : (s.setFull r v d).npc = s.npc := by unfold State.setFull; split <;> simp
@[simp] theorem setFull_pcHi : (s.setFull r v d).pcHi = s.pcHi := by unfold State.setFull; split <;> simp
@[simp] theorem setFull_npcHi : (s.setFull r v d).npcHi = s.npcHi := by unfold State.setFull; split <;> simp
@[simp] theorem setFull_ds : (s.setFull r v d).ds = s.ds := by unfold State.setFull; split <;> simp
@[simp] theorem setFull_mem : (s.setFull r v d).mem = s.mem := by unfold State.setFull; split <;> simp
@[simp] theorem setFull_launch : (s.setFull r v d).launch = s.launch := by unfold State.setFull; split <;> simp
@[simp] theorem setFull_draws : (s.setFull r v d).draws = s.draws := by unfold State.setFull; split <;> simp

@[simp] theorem drawInto_pc : (s.drawInto r).pc = s.pc := by simp [State.drawInto]
@[simp] theorem drawInto_npc : (s.drawInto r).npc = s.npc := by simp [State.drawInto]
@[simp] theorem drawInto_pcHi : (s.drawInto r).pcHi = s.pcHi := by simp [State.drawInto]
@[simp] theorem drawInto_npcHi : (s.drawInto r).npcHi = s.npcHi := by simp [State.drawInto]
@[simp] theorem drawInto_ds : (s.drawInto r).ds = s.ds := by simp [State.drawInto]
@[simp] theorem drawInto_mem : (s.drawInto r).mem = s.mem := by simp [State.drawInto]
@[simp] theorem drawInto_launch : (s.drawInto r).launch = s.launch := by simp [State.drawInto]
@[simp] theorem drawInto_draws : (s.drawInto r).draws = s.draws + 1 := rfl

/-- A word result is a full result whose 64-bit form is the sign extension. -/
theorem setWord_eq : s.setWord r v = s.setFull r v (v.signExtend 64) := rfl

/-- The link write is a write of register 31. -/
theorem setLink_eq : s.setLink = s.setFull 31 (s.pc + 8) s.linkValue64 := rfl

/-! ### Addresses after a register write -/

@[simp] theorem setFull_alen : (s.setFull r v d).alen = s.alen := by simp [State.alen]
@[simp] theorem setFull_wrap (a : Addr) : (s.setFull r v d).wrap a = s.wrap a := by simp [State.wrap]
@[simp] theorem setFull_pcAddr : (s.setFull r v d).pcAddr = s.pcAddr := by simp [State.pcAddr]
@[simp] theorem setFull_npcAddr : (s.setFull r v d).npcAddr = s.npcAddr := by simp [State.npcAddr]
@[simp] theorem drawInto_alen : (s.drawInto r).alen = s.alen := by simp [State.alen]
@[simp] theorem drawInto_wrap (a : Addr) : (s.drawInto r).wrap a = s.wrap a := by simp [State.wrap]
@[simp] theorem drawInto_pcAddr : (s.drawInto r).pcAddr = s.pcAddr := by simp [State.pcAddr]
@[simp] theorem drawInto_npcAddr : (s.drawInto r).npcAddr = s.npcAddr := by simp [State.npcAddr]

/-! ### Fields after the sequencing and after a store -/

variable (b : Bool) (a : Addr) (w : Word) (e : DWord)

@[simp] theorem sequence_gpr : (s.sequence a b).gpr = s.gpr := by unfold State.sequence; split <;> rfl
@[simp] theorem sequence_gprHi : (s.sequence a b).gprHi = s.gprHi := by unfold State.sequence; split <;> rfl
@[simp] theorem sequence_pc : (s.sequence a b).pc = s.npc := by unfold State.sequence; split <;> rfl
@[simp] theorem sequence_npc : (s.sequence a b).npc = a.extractLsb' 0 32 := by unfold State.sequence; split <;> rfl
@[simp] theorem sequence_ds : (s.sequence a b).ds = b := by unfold State.sequence; split <;> rfl
@[simp] theorem sequence_mem : (s.sequence a b).mem = s.mem := by unfold State.sequence; split <;> rfl
@[simp] theorem sequence_launch : (s.sequence a b).launch = s.launch := by unfold State.sequence; split <;> rfl
@[simp] theorem sequence_draws : (s.sequence a b).draws = s.draws := by unfold State.sequence; split <;> rfl

@[simp] theorem advance_gpr : s.advance.gpr = s.gpr := sequence_gpr s _ _
@[simp] theorem advance_gprHi : s.advance.gprHi = s.gprHi := sequence_gprHi s _ _
@[simp] theorem advance_pc : s.advance.pc = s.npc := sequence_pc s _ _
@[simp] theorem advance_ds : s.advance.ds = false := sequence_ds s _ _
@[simp] theorem advance_mem : s.advance.mem = s.mem := sequence_mem s _ _
@[simp] theorem advance_launch : s.advance.launch = s.launch := sequence_launch s _ _
@[simp] theorem advance_draws : s.advance.draws = s.draws := sequence_draws s _ _

@[simp] theorem transfer_gpr : (s.transfer b a).gpr = s.gpr := sequence_gpr s _ _
@[simp] theorem transfer_gprHi : (s.transfer b a).gprHi = s.gprHi := sequence_gprHi s _ _
@[simp] theorem transfer_pc : (s.transfer b a).pc = s.npc := sequence_pc s _ _
@[simp] theorem transfer_ds : (s.transfer b a).ds = true := sequence_ds s _ _
@[simp] theorem transfer_mem : (s.transfer b a).mem = s.mem := sequence_mem s _ _
@[simp] theorem transfer_launch : (s.transfer b a).launch = s.launch := sequence_launch s _ _
@[simp] theorem transfer_draws : (s.transfer b a).draws = s.draws := sequence_draws s _ _

@[simp] theorem putWord_gpr : (s.putWord a v).gpr = s.gpr := rfl
@[simp] theorem putWord_gprHi : (s.putWord a v).gprHi = s.gprHi := rfl
@[simp] theorem putWord_pc : (s.putWord a v).pc = s.pc := rfl
@[simp] theorem putWord_pcHi : (s.putWord a v).pcHi = s.pcHi := rfl
@[simp] theorem putWord_npcHi : (s.putWord a v).npcHi = s.npcHi := rfl
@[simp] theorem putWord_alen : (s.putWord a v).alen = s.alen := rfl
@[simp] theorem putWord_wrap (c : Addr) : (s.putWord a v).wrap c = s.wrap c := rfl
@[simp] theorem putWord_pcAddr : (s.putWord a v).pcAddr = s.pcAddr := rfl
@[simp] theorem putWord_npcAddr : (s.putWord a v).npcAddr = s.npcAddr := rfl
@[simp] theorem putWord_npc : (s.putWord a v).npc = s.npc := rfl
@[simp] theorem putWord_ds : (s.putWord a v).ds = s.ds := rfl
@[simp] theorem putWord_mem : (s.putWord a v).mem = Memory.writeWord s.launch.endian s.mem a v := rfl
@[simp] theorem putWord_launch : (s.putWord a v).launch = s.launch := rfl
@[simp] theorem putWord_draws : (s.putWord a v).draws = s.draws := rfl

/-! ### Registers after each update -/

@[simp] theorem x_zero : s.x 0#5 = 0#32 := rfl
@[simp] theorem hi_zero : s.hi 0#5 = 0#32 := rfl
@[simp] theorem x64_zero : s.x64 0#5 = 0#64 := by
  rw [State.x64, hi_zero, x_zero]
  rfl

@[simp] theorem x_advance : s.advance.x r = s.x r := by simp [State.x]
@[simp] theorem hi_advance : s.advance.hi r = s.hi r := by simp [State.hi]
@[simp] theorem x64_advance : s.advance.x64 r = s.x64 r := by simp [State.x64]
@[simp] theorem x_transfer : (s.transfer b a).x r = s.x r := by simp [State.x]
@[simp] theorem hi_transfer : (s.transfer b a).hi r = s.hi r := by simp [State.hi]
@[simp] theorem x64_transfer : (s.transfer b a).x64 r = s.x64 r := by simp [State.x64]
@[simp] theorem x_putWord : (s.putWord a v).x r = s.x r := rfl
@[simp] theorem hi_putWord : (s.putWord a v).hi r = s.hi r := rfl
@[simp] theorem x64_putWord : (s.putWord a v).x64 r = s.x64 r := rfl
@[simp] theorem x_setHi : (s.setHi r v).x q = s.x q := by simp [State.x]
@[simp] theorem hi_setX : (s.setX r v).hi q = s.hi q := by simp [State.hi]

@[simp] theorem x_setX_self : (s.setX r v).x r = if r = 0 then 0 else v := by
  unfold State.x State.setX
  split
  · rfl
  · simp only [Vector.getElem_set_self]

@[simp] theorem hi_setHi_self : (s.setHi r v).hi r = if r = 0 then 0 else v := by
  unfold State.hi State.setHi
  split
  · rfl
  · simp only [Vector.getElem_set_self]

theorem x_setX_ne (h : q ≠ r) : (s.setX r v).x q = s.x q := by
  have h' : r.toNat ≠ q.toNat := fun e => h (BitVec.eq_of_toNat_eq e.symm)
  unfold State.x State.setX
  split
  · rfl
  · split
    · rfl
    · exact Vector.getElem_set_ne r.isLt q.isLt h'

theorem hi_setHi_ne (h : q ≠ r) : (s.setHi r v).hi q = s.hi q := by
  have h' : r.toNat ≠ q.toNat := fun e => h (BitVec.eq_of_toNat_eq e.symm)
  unfold State.hi State.setHi
  split
  · rfl
  · split
    · rfl
    · exact Vector.getElem_set_ne r.isLt q.isLt h'

/-- A 64-bit value is its two halves. -/
theorem halves_append : d.extractLsb' 32 32 ++ d.extractLsb' 0 32 = d := by
  apply BitVec.eq_of_toNat_eq
  refine (Laws.toNat_concat (d.extractLsb' 32 32) (d.extractLsb' 0 32)).trans ?_
  simp only [Laws.toNat_field]
  omega

@[simp] theorem x64_setX64_self : (s.setX64 r d).x64 r = if r = 0 then 0 else d := by
  by_cases h : r = 0
  · subst h
    exact x64_zero _
  · have hx : (s.setX64 r d).x r = d.extractLsb' 0 32 := by rw [State.setX64, x_setHi, x_setX_self, if_neg h]
    have hh : (s.setX64 r d).hi r = d.extractLsb' 32 32 := by rw [State.setX64, hi_setHi_self, if_neg h]
    rw [State.x64, hx, hh, if_neg h, halves_append]

theorem x_setX64_ne (h : q ≠ r) : (s.setX64 r d).x q = s.x q := by
  simp [State.setX64, x_setX_ne _ _ _ _ h]

theorem hi_setX64_ne (h : q ≠ r) : (s.setX64 r d).hi q = s.hi q := by
  simp [State.setX64, hi_setHi_ne _ _ _ _ h]

theorem x64_setX64_ne (h : q ≠ r) : (s.setX64 r d).x64 q = s.x64 q := by
  simp [State.x64, x_setX64_ne _ _ _ _ h, hi_setX64_ne _ _ _ _ h]

theorem x64_setX_ne (h : q ≠ r) : (s.setX r v).x64 q = s.x64 q := by
  simp [State.x64, x_setX_ne _ _ _ _ h]

/-- A register written in the machine's mode leaves every other register as it was. -/
theorem x64_setFull_ne (h : q ≠ r) : (s.setFull r v d).x64 q = s.x64 q := by
  unfold State.setFull
  split
  · exact x64_setX64_ne s r q d h
  · exact x64_setX_ne s r q v h

theorem x64_drawInto_ne (h : q ≠ r) : (s.drawInto r).x64 q = s.x64 q :=
  x64_setX64_ne s r q _ h

@[simp] theorem x64_drawInto_self :
    (s.drawInto r).x64 r = if r = 0 then 0 else Config.anyValue64 s.draws :=
  x64_setX64_self s r _

/-- The 32-bit mode writes the low half only. -/
theorem setFull_of_mode32 (h : s.launch.mode64 = false) : s.setFull r v d = s.setX r v := by
  simp [State.setFull, h]

/-- MODE64 writes the whole register. -/
theorem setFull_of_mode64 (h : s.launch.mode64 = true) : s.setFull r v d = s.setX64 r d := by
  simp [State.setFull, h]

/-- A write to register 0 is discarded (R22). -/
@[simp] theorem setFull_zero : s.setFull 0#5 v d = s := by
  unfold State.setFull
  split <;> rfl

/-! ### Register writes among themselves and with the sequencing -/

theorem setX_setX_self : (s.setX r v).setX r w = s.setX r w := by
  unfold State.setX
  split
  · rfl
  · simp only [Vector.set_set]

theorem setHi_setHi_self : (s.setHi r v).setHi r w = s.setHi r w := by
  unfold State.setHi
  split
  · rfl
  · simp only [Vector.set_set]

theorem setX_setX_comm (h : q ≠ r) : (s.setX r v).setX q w = (s.setX q w).setX r v := by
  have h' : r.toNat ≠ q.toNat := fun e => h (BitVec.eq_of_toNat_eq e.symm)
  unfold State.setX
  split <;> split <;> first | rfl | simp only [Vector.set_comm v w h']

theorem setHi_setHi_comm (h : q ≠ r) : (s.setHi r v).setHi q w = (s.setHi q w).setHi r v := by
  have h' : r.toNat ≠ q.toNat := fun e => h (BitVec.eq_of_toNat_eq e.symm)
  unfold State.setHi
  split <;> split <;> first | rfl | simp only [Vector.set_comm v w h']

theorem setHi_setX_comm : (s.setHi r v).setX q w = (s.setX q w).setHi r v := by
  unfold State.setX State.setHi
  split <;> split <;> rfl

/-- A second write of a register replaces the first. -/
theorem setFull_setFull_self : (s.setFull r v d).setFull r w e = s.setFull r w e := by
  cases hm : s.launch.mode64
  · rw [setFull_of_mode32 s r v d hm, setFull_of_mode32 _ r w e (by simpa), setFull_of_mode32 s r w e hm,
      setX_setX_self]
  · rw [setFull_of_mode64 s r v d hm, setFull_of_mode64 _ r w e (by simpa), setFull_of_mode64 s r w e hm]
    simp only [State.setX64]
    rw [setHi_setX_comm, setX_setX_self, setHi_setHi_self]

/-- Writes of two registers commute. -/
theorem setFull_setFull_comm (h : q ≠ r) :
    (s.setFull r v d).setFull q w e = (s.setFull q w e).setFull r v d := by
  cases hm : s.launch.mode64
  · rw [setFull_of_mode32 s r v d hm, setFull_of_mode32 _ q w e (by simpa), setFull_of_mode32 s q w e hm,
      setFull_of_mode32 _ r v d (by simpa), setX_setX_comm s r q v w h]
  · rw [setFull_of_mode64 s r v d hm, setFull_of_mode64 _ q w e (by simpa), setFull_of_mode64 s q w e hm,
      setFull_of_mode64 _ r v d (by simpa)]
    simp only [State.setX64]
    rw [setHi_setX_comm, setX_setX_comm _ _ _ _ _ h, setHi_setHi_comm _ _ _ _ _ h, setHi_setX_comm]

theorem setFull_sequence : (s.setFull r v d).sequence a b = (s.sequence a b).setFull r v d := by
  cases hm : s.launch.mode64
  · simp only [State.sequence, State.setFull, State.setX, hm, Bool.false_eq_true, if_false]
    split <;> simp [hm]
  · simp only [State.sequence, State.setFull, State.setX64, State.setX, State.setHi, hm, if_true]
    split <;> simp

theorem setFull_advance : (s.setFull r v d).advance = s.advance.setFull r v d := by
  simp only [State.advance, setFull_wrap, setFull_npcAddr, setFull_sequence]

theorem setFull_transfer : (s.setFull r v d).transfer b a = (s.transfer b a).setFull r v d := by
  simp only [State.transfer, setFull_wrap, setFull_npcAddr, setFull_sequence]

theorem setFull_putWord : (s.setFull r v d).putWord a w = (s.putWord a w).setFull r v d := by
  unfold State.setFull State.setX64 State.setX State.setHi State.putWord
  split <;> split <;> rfl

/-- A register written in the machine's mode leaves the low half of every other register as it was. -/
theorem x_setFull_ne (h : q ≠ r) : (s.setFull r v d).x q = s.x q := by
  unfold State.setFull
  split
  · exact x_setX64_ne s r q d h
  · exact x_setX_ne s r q v h

/-! ### The width of an address, and addresses after the sequencing -/

@[simp] theorem sequence_alen : (s.sequence a b).alen = s.alen := by simp [State.alen]
@[simp] theorem advance_alen : s.advance.alen = s.alen := by simp [State.alen]
@[simp] theorem transfer_alen : (s.transfer b a).alen = s.alen := by simp [State.alen]

/-- An address has 32 bits in the normative mode. -/
theorem alen_of_mode32 (h : s.launch.mode64 = false) : s.alen = 32 := by simp [State.alen, addressBits, h]

/-- An address has from 32 to 64 bits. -/
theorem alen_bounds : 32 ≤ s.alen ∧ s.alen ≤ 64 := by
  unfold State.alen addressBits
  have := s.launch.addressBitsAbove32.isLt
  split <;> omega

/-- The address space is made of whole 32-bit regions, and fits in the container of an address. -/
theorem two_pow_alen : ∃ k, 0 < k ∧ 2 ^ s.alen = k * 2 ^ 32 ∧ 2 ^ 64 % (k * 2 ^ 32) = 0 := by
  obtain ⟨h1, h2⟩ := alen_bounds s
  refine ⟨2 ^ (s.alen - 32), Nat.two_pow_pos _, ?_, ?_⟩
  · rw [← Nat.pow_add]
    congr 1
    omega
  · rw [← Nat.pow_add]
    exact Nat.mod_eq_zero_of_dvd (Nat.pow_dvd_pow 2 (by omega))

/-- A wrapped address as a number. -/
@[simp] theorem toNat_wrap : (s.wrap a).toNat = a.toNat % 2 ^ s.alen := by
  have h : 2 ^ s.alen ≤ 2 ^ 64 := Nat.pow_le_pow_right (by decide) (alen_bounds s).2
  rw [State.wrap, BitVec.toNat_ofNat]
  exact Nat.mod_eq_of_lt ((Nat.mod_lt _ (Nat.two_pow_pos _)).trans_le h)

/-- A sum of addresses, wrapped, as a number. -/
theorem toNat_wrap_add (c : Addr) : (s.wrap (a + c)).toNat = (a.toNat + c.toNat) % 2 ^ s.alen := by
  rw [toNat_wrap, BitVec.toNat_add]
  exact Nat.mod_mod_of_dvd _ (Nat.pow_dvd_pow 2 (alen_bounds s).2)

theorem toNat_wordAddress : (wordAddress w).toNat = w.toNat := by
  rw [wordAddress, BitVec.toNat_setWidth]
  exact Nat.mod_eq_of_lt (w.isLt.trans (by decide))

@[simp] theorem sequence_pcAddr : (s.sequence a b).pcAddr = s.npcAddr := by
  unfold State.pcAddr State.npcAddr State.sequence
  cases h : s.launch.mode64 <;> simp [h]

/-- The next address after the sequencing is the one given, where that is an address. -/
theorem sequence_npcAddr (h : a.toNat < 2 ^ s.alen) : (s.sequence a b).npcAddr = a := by
  cases hm : s.launch.mode64
  · rw [alen_of_mode32 s hm] at h
    simp only [State.npcAddr, sequence_launch, hm, Bool.false_eq_true, if_false, sequence_npc]
    apply BitVec.eq_of_toNat_eq
    rw [toNat_wordAddress, Laws.toNat_field]
    omega
  · simp only [State.npcAddr, sequence_launch, hm, if_true]
    simp only [State.sequence, hm, if_true, halves_append]

theorem wrap_lt : (s.wrap a).toNat < 2 ^ s.alen := by
  rw [toNat_wrap]
  exact Nat.mod_lt _ (Nat.two_pow_pos _)

@[simp] theorem advance_pcAddr : s.advance.pcAddr = s.npcAddr := sequence_pcAddr s _ _

@[simp] theorem advance_npcAddr : s.advance.npcAddr = s.wrap (s.npcAddr + 4) := sequence_npcAddr s _ _ (wrap_lt s _)

@[simp] theorem transfer_pcAddr : (s.transfer b a).pcAddr = s.npcAddr := sequence_pcAddr s _ _

theorem transfer_npcAddr (h : a.toNat < 2 ^ s.alen) :
    (s.transfer b a).npcAddr = if b then a else s.wrap (s.npcAddr + 4) := by
  refine sequence_npcAddr s _ _ ?_
  cases b
  · exact wrap_lt s _
  · exact h

/-- An address of the normative mode has the width of an address. -/
theorem wordAddress_lt : (wordAddress w).toNat < 2 ^ s.alen := by
  rw [toNat_wordAddress]
  exact w.isLt.trans_le (Nat.pow_le_pow_right (by decide) (alen_bounds s).1)

theorem branchTarget_lt (offset : Imm16) : (s.branchTarget offset).toNat < 2 ^ s.alen := by
  unfold State.branchTarget
  split
  · exact wrap_lt s _
  · exact wordAddress_lt s _

theorem jumpTarget_lt (target : Target26) : (s.jumpTarget target).toNat < 2 ^ s.alen := by
  unfold State.jumpTarget
  split
  · exact wrap_lt s _
  · exact wordAddress_lt s _

theorem registerTarget_lt : (s.registerTarget r).toNat < 2 ^ s.alen := by
  unfold State.registerTarget
  split
  · exact wrap_lt s _
  · exact wordAddress_lt s _

theorem effectiveAddress_lt (offset : Imm16) : (s.effectiveAddress r offset).toNat < 2 ^ s.alen := by
  unfold State.effectiveAddress
  split
  · exact wrap_lt s _
  · exact wordAddress_lt s _

end

end Sys2Proof.Machine
end

