-- ==== Sys2Proof/Laws/Operands.lean ====
section
/-! SUPPORT. The addresses the operand forms compute, as numbers, in each mode. -/

namespace Sys2Proof.Machine

section
variable (s : State) (offset : Imm16) (target : Target26) (r : Reg)

/-- A displacement: four times the signed offset. -/
theorem toInt_displacement (w : Nat) (h : 18 ≤ w) : ((offset ++ 0#2).signExtend w).toInt = 4 * offset.toInt := by
  rw [BitVec.toInt_signExtend_of_le h, BitVec.toInt_eq_toNat_cond, BitVec.toInt_eq_toNat_cond, Laws.toNat_concat]
  have := offset.isLt
  have : (0#2).toNat = 0 := rfl
  split_ifs <;> omega

/-- A sum with a signed number, as a number. -/
theorem toNat_add_toInt {n : Nat} (a b : BitVec n) : ((a + b).toNat : Int) = (a.toNat + b.toInt) % 2 ^ n := by
  rw [BitVec.toNat_add, BitVec.toInt_eq_toNat_cond]
  split
  · push_cast
    rfl
  · rw [← Int.add_sub_assoc]
    push_cast
    exact (Int.sub_emod_right _ _).symm

/-- A wrapped sum with a signed number, as a number. -/
theorem toNat_wrap_add_toInt (a b : Addr) : ((s.wrap (a + b)).toNat : Int) = (a.toNat + b.toInt) % 2 ^ s.alen := by
  rw [toNat_wrap]
  push_cast
  rw [toNat_add_toInt]
  exact Int.emod_emod_of_dvd _ (pow_dvd_pow 2 (alen_bounds s).2)

/-- The branch target in the 32-bit mode (R143). -/
theorem branchTarget_of_mode32 (h : s.launch.mode64 = false) :
    ((s.branchTarget offset).toNat : Int) = (s.pc.toNat + 4 + 4 * offset.toInt) % 2 ^ 32 := by
  have four : (4 : Word).toInt = 4 := rfl
  simp only [State.branchTarget, h, Bool.false_eq_true, if_false, toNat_wordAddress]
  rw [toNat_add_toInt, toNat_add_toInt, four, branchDisplacement, toInt_displacement _ _ (by decide), Int.emod_add_emod]

/-- The branch target in MODE64 (R35, R143). -/
theorem branchTarget_of_mode64 (h : s.launch.mode64 = true) :
    ((s.branchTarget offset).toNat : Int) = (s.pcAddr.toNat + 4 + 4 * offset.toInt) % 2 ^ s.alen := by
  have four : (4 : Addr).toInt = 4 := rfl
  simp only [State.branchTarget, h, if_true]
  rw [toNat_wrap_add_toInt, toNat_add_toInt, four, branchDisplacement64, toInt_displacement _ _ (by decide)]
  have hd : (2 : Int) ^ s.alen ∣ 2 ^ 64 := pow_dvd_pow 2 (alen_bounds s).2
  rw [← Int.emod_add_emod, Int.emod_emod_of_dvd _ hd, Int.emod_add_emod]

/-- The jump target in the 32-bit mode (R145). -/
theorem jumpTarget_of_mode32 (h : s.launch.mode64 = false) :
    (s.jumpTarget target).toNat = (s.pc.toNat + 4) % 2 ^ 32 / 2 ^ 28 * 2 ^ 28 + 4 * target.toNat := by
  simp only [State.jumpTarget, h, Bool.false_eq_true, if_false, toNat_wordAddress]
  refine (Laws.toNat_concat ((s.pc + 4).extractLsb' 28 4 ++ target) 0#2).trans ?_
  rw [Laws.toNat_concat, Laws.toNat_field, BitVec.toNat_add]
  have := target.isLt
  have : (0#2).toNat = 0 := rfl
  have : (4 : Word).toNat = 4 := rfl
  omega

/-- The low 28 bits of the jump target in MODE64 (R35, R145). -/
theorem jumpTarget_of_mode64 (h : s.launch.mode64 = true) :
    (s.jumpTarget target).toNat % 2 ^ 28 = 4 * target.toNat := by
  simp only [State.jumpTarget, h, if_true, toNat_wrap]
  rw [Nat.mod_mod_of_dvd _ (Nat.pow_dvd_pow 2 (show 28 ≤ s.alen by have := (alen_bounds s).1; omega))]
  rw [show (Config.jumpRegion64 s.pcAddr target ++ target ++ 0#2 : Addr).toNat = _ from
    Laws.toNat_concat (Config.jumpRegion64 s.pcAddr target ++ target) 0#2, Laws.toNat_concat]
  have := target.isLt
  have : (0#2).toNat = 0 := rfl
  omega

/-- The target of JR in the 32-bit mode (R147). -/
theorem registerTarget_of_mode32 (h : s.launch.mode64 = false) : s.registerTarget r = wordAddress (s.x r) := by
  simp [State.registerTarget, h]

/-- The target of JR in MODE64 (R35, R147). -/
theorem registerTarget_of_mode64 (h : s.launch.mode64 = true) :
    (s.registerTarget r).toNat = (s.x64 r).toNat % 2 ^ s.alen := by
  simp [State.registerTarget, h]

/-- The effective address in the 32-bit mode (R170). -/
theorem effectiveAddress_of_mode32 (h : s.launch.mode64 = false) :
    ((s.effectiveAddress r offset).toNat : Int) = ((s.x r).toNat + offset.toInt) % 2 ^ 32 := by
  simp only [State.effectiveAddress, h, Bool.false_eq_true, if_false, toNat_wordAddress]
  rw [toNat_add_toInt, signedImm, BitVec.toInt_signExtend_of_le (by decide)]

/-- The effective address in MODE64 (R35, R170). -/
theorem effectiveAddress_of_mode64 (h : s.launch.mode64 = true) :
    ((s.effectiveAddress r offset).toNat : Int) = ((s.x64 r).toNat + offset.toInt) % 2 ^ s.alen := by
  simp only [State.effectiveAddress, h, if_true]
  rw [toNat_wrap_add_toInt, signedImm64, BitVec.toInt_signExtend_of_le (by decide)]

/-- The 64-bit link value, in as many bits as an address has (R35, R146). -/
theorem linkValue64_mod : s.linkValue64.toNat % 2 ^ s.alen = (s.pcAddr.toNat + 8) % 2 ^ s.alen := by
  have eight : (8 : Addr).toNat = 8 := rfl
  rw [State.linkValue64, BitVec.toNat_ofNat, Nat.mod_mod_of_dvd _ (Nat.pow_dvd_pow 2 (alen_bounds s).2),
    Nat.mul_add_mod_self_right, toNat_wrap_add, eight, Nat.mod_mod]

end

end Sys2Proof.Machine
end

