-- ==== Sys2Proof/Laws/Ops.lean ====
section
/-! SUPPORT. What each shared operation can do, said once: when it answers a next state, and which. -/

namespace Sys2Proof.Machine

section
variable (s t : State) (dst r : Reg) (v : Word) (d : DWord)

theorem finishWord_next : finishWord s dst v = .next t ↔ t = (s.setWord dst v).advance := by
  simp [finishWord, eq_comm]

theorem finishFull_next : finishFull s dst v d = .next t ↔ t = (s.setFull dst v d).advance := by
  simp [finishFull, eq_comm]

/-- In 32-bit mode every operand is valid. -/
theorem operandsValid_of_mode32 (sources : List Reg) (h : s.launch.mode64 = false) :
    s.operandsValid sources = true := by
  simp [State.operandsValid, h]

/-- In 32-bit mode a word operation is what it runs. -/
theorem wordOperation_of_mode32 (sources : List Reg) (run : StepResult) (h : s.launch.mode64 = false) :
    wordOperation s dst sources run = run := by
  simp [wordOperation, operandsValid_of_mode32 s sources h]

/-- On valid operands a word operation is what it runs. -/
theorem wordOperation_of_valid (sources : List Reg) (run : StepResult) (h : s.operandsValid sources = true) :
    wordOperation s dst sources run = run := by
  simp [wordOperation, h]

/-- On an invalid operand a word operation writes the next free value. -/
theorem wordOperation_of_invalid (sources : List Reg) (run : StepResult) (h : s.operandsValid sources = false) :
    wordOperation s dst sources run = .next (s.drawInto dst).advance := by
  simp [wordOperation, h]

theorem wordOperation_next (sources : List Reg) (run : StepResult) :
    wordOperation s dst sources run = .next t ↔
      (s.operandsValid sources = true ∧ run = .next t) ∨
      (s.operandsValid sources = false ∧ t = (s.drawInto dst).advance) := by
  cases hv : s.operandsValid sources
  · simp [wordOperation_of_invalid s dst sources run hv, eq_comm]
  · simp [wordOperation_of_valid s dst sources run hv]

theorem addChecked_next (a b : Word) :
    addChecked s dst a b = .next t ↔ addOverflows a b = false ∧ t = (s.setWord dst (a + b)).advance := by
  cases ho : addOverflows a b
  · simp [addChecked, ho, finishWord_next]
  · simp [addChecked, ho, raiseException]

theorem controlTransfer_next (taken : Bool) (target : Addr) :
    controlTransfer s taken target = .next t ↔ s.ds = false ∧ t = s.transfer taken target := by
  cases hd : s.ds
  · simp [controlTransfer, hd, eq_comm]
  · simp [controlTransfer, hd]

theorem aligned_next (kind : AccessKind) (a : Addr) (access : StepResult) :
    aligned s kind a access = .next t ↔ wordAligned a = true ∧ access = .next t := by
  cases ha : wordAligned a
  · simp [aligned, ha, raiseException]
  · simp [aligned, ha]

theorem loadWord_next (a : Addr) (use : Word → StepResult) :
    loadWord s a use = .next t ↔ ∃ w, s.memRead a = some w ∧ use w = .next t := by
  cases hm : s.memRead a
  · simp [loadWord, hm]
  · simp [loadWord, hm]

theorem storeWord_next (a : Addr) :
    storeWord s a v = .next t ↔
      s.inText a = false ∧ (s.memRead a).isSome = true ∧ t = (s.putWord a v).advance := by
  cases ht : s.inText a
  · cases hm : (s.memRead a).isSome
    · simp [storeWord, ht, hm]
    · simp [storeWord, ht, hm, eq_comm]
  · simp [storeWord, ht]

end

theorem wordAligned_iff (a : Addr) : wordAligned a = true ↔ a.toNat % 4 = 0 := by
  refine ⟨aligned_toNat, fun h => beq_iff_eq.2 (BitVec.eq_of_toNat_eq ?_)⟩
  rw [Laws.toNat_field]
  simpa using h

/-- The width of an address changes nothing of the two low bits. -/
theorem mod_alen_mod_four (s : State) (n : Nat) : n % 2 ^ s.alen % 4 = n % 4 :=
  Nat.mod_mod_of_dvd n (Nat.pow_dvd_pow 2 (show 2 ≤ s.alen by have := (alen_bounds s).1; omega))

/-- How an instruction can complete: the shapes of its next state, over all instructions. -/
inductive Completion (i : Instr) (s : State) : State → Prop where
  /-- A register result. -/
  | register (dst : Reg) (v : Word) (d : DWord) (plain : i.isTransfer = false) (writes : i.writes = [dst]) :
      Completion i s (s.setFull dst v d).advance
  /-- A free value, in MODE64 only. -/
  | drawn (dst : Reg) (mode : s.launch.mode64 = true) (plain : i.isTransfer = false) (writes : i.writes = [dst]) :
      Completion i s (s.drawInto dst).advance
  /-- A store. -/
  | store (a : Addr) (v : Word) (plain : i.isTransfer = false) (writes : i.writes = []) (align : wordAligned a = true)
      (outsideText : s.inText a = false) (held : (s.memRead a).isSome = true) :
      Completion i s (s.putWord a v).advance
  /-- BEQ or BNE. -/
  | branch (taken : Bool) (offset : Imm16) (slot : s.ds = false) (isTransfer : i.isTransfer = true)
      (writes : i.writes = []) : Completion i s (s.transfer taken (s.branchTarget offset))
  /-- J. -/
  | jump (target : Target26) (slot : s.ds = false) (eq : i = .j target) :
      Completion i s (s.transfer true (s.jumpTarget target))
  /-- JAL. -/
  | link (target : Target26) (slot : s.ds = false) (eq : i = .jal target) :
      Completion i s (s.setLink.transfer true (s.jumpTarget target))
  /-- JR. -/
  | registerJump (rs : Reg) (slot : s.ds = false) (eq : i = .jr rs) :
      Completion i s (s.transfer true (s.registerTarget rs))

/-- Every completed instruction has one of those shapes. -/
theorem exec_completion {i : Instr} {s t : State} (h : exec i s = .next t) : Completion i s t := by
  cases i with
  | add rd rs rt =>
    rcases (wordOperation_next _ _ _ _ _).1 h with ⟨-, h⟩ | ⟨hv, rfl⟩
    · obtain ⟨-, rfl⟩ := (addChecked_next _ _ _ _ _).1 h
      exact .register _ _ _ rfl rfl
    · exact .drawn _ (by cases hm : s.launch.mode64 <;> simp_all [State.operandsValid]) rfl rfl
  | addi rt rs imm =>
    rcases (wordOperation_next _ _ _ _ _).1 h with ⟨-, h⟩ | ⟨hv, rfl⟩
    · obtain ⟨-, rfl⟩ := (addChecked_next _ _ _ _ _).1 h
      exact .register _ _ _ rfl rfl
    · exact .drawn _ (by cases hm : s.launch.mode64 <;> simp_all [State.operandsValid]) rfl rfl
  | addiu rt rs imm =>
    rcases (wordOperation_next _ _ _ _ _).1 h with ⟨-, h⟩ | ⟨hv, rfl⟩
    · obtain rfl := (finishWord_next _ _ _ _).1 h
      exact .register _ _ _ rfl rfl
    · exact .drawn _ (by cases hm : s.launch.mode64 <;> simp_all [State.operandsValid]) rfl rfl
  | addu rd rs rt =>
    rcases (wordOperation_next _ _ _ _ _).1 h with ⟨-, h⟩ | ⟨hv, rfl⟩
    · obtain rfl := (finishWord_next _ _ _ _).1 h
      exact .register _ _ _ rfl rfl
    · exact .drawn _ (by cases hm : s.launch.mode64 <;> simp_all [State.operandsValid]) rfl rfl
  | subu rd rs rt =>
    rcases (wordOperation_next _ _ _ _ _).1 h with ⟨-, h⟩ | ⟨hv, rfl⟩
    · obtain rfl := (finishWord_next _ _ _ _).1 h
      exact .register _ _ _ rfl rfl
    · exact .drawn _ (by cases hm : s.launch.mode64 <;> simp_all [State.operandsValid]) rfl rfl
  | srl rd rt sa =>
    rcases (wordOperation_next _ _ _ _ _).1 h with ⟨-, h⟩ | ⟨hv, rfl⟩
    · obtain rfl := (finishWord_next _ _ _ _).1 h
      exact .register _ _ _ rfl rfl
    · exact .drawn _ (by cases hm : s.launch.mode64 <;> simp_all [State.operandsValid]) rfl rfl
  | sll rd rt sa => obtain rfl := (finishWord_next _ _ _ _).1 h; exact .register _ _ _ rfl rfl
  | lui rt imm => obtain rfl := (finishWord_next _ _ _ _).1 h; exact .register _ _ _ rfl rfl
  | and rd rs rt => obtain rfl := (finishFull_next _ _ _ _ _).1 h; exact .register _ _ _ rfl rfl
  | andi rt rs imm => obtain rfl := (finishFull_next _ _ _ _ _).1 h; exact .register _ _ _ rfl rfl
  | nor rd rs rt => obtain rfl := (finishFull_next _ _ _ _ _).1 h; exact .register _ _ _ rfl rfl
  | or rd rs rt => obtain rfl := (finishFull_next _ _ _ _ _).1 h; exact .register _ _ _ rfl rfl
  | ori rt rs imm => obtain rfl := (finishFull_next _ _ _ _ _).1 h; exact .register _ _ _ rfl rfl
  | sltu rd rs rt => obtain rfl := (finishFull_next _ _ _ _ _).1 h; exact .register _ _ _ rfl rfl
  | beq rs rt offset => obtain ⟨hd, rfl⟩ := (controlTransfer_next _ _ _ _).1 h; exact .branch _ _ hd rfl rfl
  | bne rs rt offset => obtain ⟨hd, rfl⟩ := (controlTransfer_next _ _ _ _).1 h; exact .branch _ _ hd rfl rfl
  | j target => obtain ⟨hd, rfl⟩ := (controlTransfer_next _ _ _ _).1 h; exact .jump _ hd rfl
  | jal target =>
    obtain ⟨hd, rfl⟩ := (controlTransfer_next _ _ _ _).1 h
    exact .link _ (by simpa [setLink_eq] using hd) rfl
  | jr rs => obtain ⟨hd, rfl⟩ := (controlTransfer_next _ _ _ _).1 h; exact .registerJump _ hd rfl
  | lw rt offset base =>
    obtain ⟨-, h⟩ := (aligned_next _ _ _ _ _).1 h
    obtain ⟨w, -, h⟩ := (loadWord_next _ _ _ _).1 h
    obtain rfl := (finishWord_next _ _ _ _).1 h
    exact .register _ _ _ rfl rfl
  | sw rt offset base =>
    obtain ⟨ha, h⟩ := (aligned_next _ _ _ _ _).1 h
    obtain ⟨ht, hm, rfl⟩ := (storeWord_next _ _ _ _).1 h
    exact .store _ _ rfl rfl ha ht hm

end Sys2Proof.Machine
end

