-- ==== Sys2Proof/Laws/PerInstr.lean ====
section
/-! SUPPORT. Per instruction: the encoder's word fits the row of R73 that bears the instruction's mnemonic, must-be-zero
fields included (R72). -/

namespace Sys2Proof.Laws.RowFit

/-- The word of `i` is accepted by the table row of `i`. -/
def Statement (i : Instr) : Prop :=
  ∃ row ∈ encodingTable, row.mnemonic = i.mnemonic ∧ row.accepts (encode i) = true

/-- A field under the mask of all its bits, and under the mask of none. -/
theorem field_masks (n : Nat) (x : BitVec n) : x &&& BitVec.allOnes n = x ∧ x &&& 0#n = 0#n :=
  ⟨BitVec.and_allOnes, BitVec.and_zero⟩

theorem fits_register (rs rt rd : Reg) (f : BitVec 6) :
    encodeR rs rt rd 0 f &&& 0xFC0007FF = encodeR 0 0 0 0 f := by
  rw [mask_register, encodeR_and, show (0x3F#6) = BitVec.allOnes 6 from rfl]
  simp only [field_masks]
  rfl

theorem fits_shift (rt rd : Reg) (sa : Shamt) (f : BitVec 6) :
    encodeR 0 rt rd sa f &&& 0xFFE0003F = encodeR 0 0 0 0 f := by
  rw [mask_shift, encodeR_and, show (0x3F#6) = BitVec.allOnes 6 from rfl]
  simp only [field_masks]
  rfl

theorem fits_jr (rs : Reg) (f : BitVec 6) :
    encodeR rs 0 0 0 f &&& 0xFC1FFFFF = encodeR 0 0 0 0 f := by
  rw [mask_jr, encodeR_and, show (0x3F#6) = BitVec.allOnes 6 from rfl]
  simp only [field_masks]
  rfl

theorem fits_immediate (op : BitVec 6) (rs rt : Reg) (imm : Imm16) :
    encodeI op rs rt imm &&& 0xFC000000 = encodeI op 0 0 0 := by
  rw [mask_immediate, encodeI_and, show (0x3F#6) = BitVec.allOnes 6 from rfl]
  simp only [field_masks]
  rfl

theorem fits_lui (op : BitVec 6) (rt : Reg) (imm : Imm16) :
    encodeI op 0 rt imm &&& 0xFFE00000 = encodeI op 0 0 0 := by
  rw [mask_lui, encodeI_and, show (0x3F#6) = BitVec.allOnes 6 from rfl]
  simp only [field_masks]
  rfl

theorem fits_jump (op : BitVec 6) (target : Target26) :
    encodeJ op target &&& 0xFC000000 = encodeJ op 0 := by
  rw [mask_jump, encodeJ_and, show (0x3F#6) = BitVec.allOnes 6 from rfl]
  simp only [field_masks]
  rfl

/-- A row of the table whose masked bits are the word's accepts it. -/
theorem accepts_of (i : Instr) (row : EncodingRow) (hrow : row ∈ encodingTable)
    (hname : row.mnemonic = i.mnemonic) (h : encode i &&& row.mask = row.bits) : Statement i :=
  ⟨row, hrow, hname, beq_iff_eq.2 h⟩

theorem add (rd rs rt : Reg) : Statement (.add rd rs rt) :=
  accepts_of _ ⟨"ADD", 0x00000020, 0xFC0007FF⟩ (by decide) rfl (fits_register rs rt rd _)

theorem addi (rt rs : Reg) (imm : Imm16) : Statement (.addi rt rs imm) :=
  accepts_of _ ⟨"ADDI", 0x20000000, 0xFC000000⟩ (by decide) rfl (fits_immediate _ rs rt imm)

theorem addiu (rt rs : Reg) (imm : Imm16) : Statement (.addiu rt rs imm) :=
  accepts_of _ ⟨"ADDIU", 0x24000000, 0xFC000000⟩ (by decide) rfl (fits_immediate _ rs rt imm)

theorem addu (rd rs rt : Reg) : Statement (.addu rd rs rt) :=
  accepts_of _ ⟨"ADDU", 0x00000021, 0xFC0007FF⟩ (by decide) rfl (fits_register rs rt rd _)

theorem and (rd rs rt : Reg) : Statement (.and rd rs rt) :=
  accepts_of _ ⟨"AND", 0x00000024, 0xFC0007FF⟩ (by decide) rfl (fits_register rs rt rd _)

theorem andi (rt rs : Reg) (imm : Imm16) : Statement (.andi rt rs imm) :=
  accepts_of _ ⟨"ANDI", 0x30000000, 0xFC000000⟩ (by decide) rfl (fits_immediate _ rs rt imm)

theorem beq (rs rt : Reg) (offset : Imm16) : Statement (.beq rs rt offset) :=
  accepts_of _ ⟨"BEQ", 0x10000000, 0xFC000000⟩ (by decide) rfl (fits_immediate _ rs rt offset)

theorem bne (rs rt : Reg) (offset : Imm16) : Statement (.bne rs rt offset) :=
  accepts_of _ ⟨"BNE", 0x14000000, 0xFC000000⟩ (by decide) rfl (fits_immediate _ rs rt offset)

theorem j (target : Target26) : Statement (.j target) :=
  accepts_of _ ⟨"J", 0x08000000, 0xFC000000⟩ (by decide) rfl (fits_jump _ target)

theorem jal (target : Target26) : Statement (.jal target) :=
  accepts_of _ ⟨"JAL", 0x0C000000, 0xFC000000⟩ (by decide) rfl (fits_jump _ target)

theorem jr (rs : Reg) : Statement (.jr rs) :=
  accepts_of _ ⟨"JR", 0x00000008, 0xFC1FFFFF⟩ (by decide) rfl (fits_jr rs _)

theorem lui (rt : Reg) (imm : Imm16) : Statement (.lui rt imm) :=
  accepts_of _ ⟨"LUI", 0x3C000000, 0xFFE00000⟩ (by decide) rfl (fits_lui _ rt imm)

theorem lw (rt : Reg) (offset : Imm16) (base : Reg) : Statement (.lw rt offset base) :=
  accepts_of _ ⟨"LW", 0x8C000000, 0xFC000000⟩ (by decide) rfl (fits_immediate _ base rt offset)

theorem nor (rd rs rt : Reg) : Statement (.nor rd rs rt) :=
  accepts_of _ ⟨"NOR", 0x00000027, 0xFC0007FF⟩ (by decide) rfl (fits_register rs rt rd _)

theorem or (rd rs rt : Reg) : Statement (.or rd rs rt) :=
  accepts_of _ ⟨"OR", 0x00000025, 0xFC0007FF⟩ (by decide) rfl (fits_register rs rt rd _)

theorem ori (rt rs : Reg) (imm : Imm16) : Statement (.ori rt rs imm) :=
  accepts_of _ ⟨"ORI", 0x34000000, 0xFC000000⟩ (by decide) rfl (fits_immediate _ rs rt imm)

theorem sll (rd rt : Reg) (sa : Shamt) : Statement (.sll rd rt sa) :=
  accepts_of _ ⟨"SLL", 0x00000000, 0xFFE0003F⟩ (by decide) rfl (fits_shift rt rd sa _)

theorem sltu (rd rs rt : Reg) : Statement (.sltu rd rs rt) :=
  accepts_of _ ⟨"SLTU", 0x0000002B, 0xFC0007FF⟩ (by decide) rfl (fits_register rs rt rd _)

theorem srl (rd rt : Reg) (sa : Shamt) : Statement (.srl rd rt sa) :=
  accepts_of _ ⟨"SRL", 0x00000002, 0xFFE0003F⟩ (by decide) rfl (fits_shift rt rd sa _)

theorem subu (rd rs rt : Reg) : Statement (.subu rd rs rt) :=
  accepts_of _ ⟨"SUBU", 0x00000023, 0xFC0007FF⟩ (by decide) rfl (fits_register rs rt rd _)

theorem sw (rt : Reg) (offset : Imm16) (base : Reg) : Statement (.sw rt offset base) :=
  accepts_of _ ⟨"SW", 0xAC000000, 0xFC000000⟩ (by decide) rfl (fits_immediate _ base rt offset)

end Sys2Proof.Laws.RowFit
end

