-- ==== Sys2Proof/Laws/Step.lean ====
section
/-! SUPPORT. What a step can do, said once: which instruction it runs, and what it leaves in each part of the state. -/

namespace Sys2Proof.Machine

/-- When the fetch yields an instruction, and which (R26 steps 1 to 5). -/
theorem fetchInstr_next (s : State) (i : Instr) :
    fetchInstr s = .next i ↔
      s.isOver = false ∧ wordAligned s.pcAddr = true ∧ s.inText s.pcAddr = true ∧
        ∃ w, s.memRead s.pcAddr = some w ∧ decodeWord w = .instr i := by
  unfold fetchInstr
  cases ho : s.isOver
  · cases ha : wordAligned s.pcAddr
    · simp
    · cases ht : s.inText s.pcAddr
      · simp
      · cases hm : s.memRead s.pcAddr with
        | none => simp
        | some w => cases hd : decodeWord w <;> simp [hd]
  · simp

/-- A next state of a step is the next state of the instruction fetched. -/
theorem step_next (s t : State) : step s = .next t ↔ ∃ i, fetchInstr s = .next i ∧ exec i s = .next t := by
  unfold step
  cases hf : fetchInstr s <;> simp

/-- The sequencing and the launch parameters after any completed instruction. -/
theorem completion_sequencing {i : Instr} {s t : State} (h : Completion i s t) :
    t.pcAddr = s.npcAddr ∧ t.ds = i.isTransfer ∧ t.launch = s.launch ∧ (t.ds = true → s.ds = false) ∧
      (t.ds = false → t.npcAddr = s.wrap (s.npcAddr + 4)) := by
  cases h <;> simp_all [setLink_eq, Instr.isTransfer]

/-- The memory after any completed instruction: as it was, or with one word outside the text replaced. -/
theorem completion_memory {i : Instr} {s t : State} (h : Completion i s t) :
    t.mem = s.mem ∨ ∃ a v, t.mem = Memory.writeWord s.launch.endian s.mem a v ∧ wordAligned a = true ∧
      s.inText a = false ∧ (s.memRead a).isSome = true := by
  cases h with
  | store a v plain writes align outsideText held => exact .inr ⟨a, v, by simp, align, outsideText, held⟩
  | _ => left; simp [setLink_eq]

end Sys2Proof.Machine
end

