-- ==== Sys2Proof/Tests/Slice0.lean ====
section
/-! SUPPORT. The model's own tests: words written out from R73 and 95_test_vectors.md, ill-formed words and launches, one or
two steps per instruction on the vectors of 95_test_vectors.md, and for every statement a state that meets its
hypotheses. -/

namespace Sys2Proof.Tests

open Sys2Proof.Machine

/-! ### Decoding: 95_test_vectors.md 2.1, one word per instruction -/

theorem test_decode_add : decodeWord 0x00221820 = .instr (.add 3 1 2) := by decide
theorem test_decode_addi : decodeWord 0x2022FFFF = .instr (.addi 2 1 0xFFFF) := by decide
theorem test_decode_addiu : decodeWord 0x2422FFFF = .instr (.addiu 2 1 0xFFFF) := by decide
theorem test_decode_addu : decodeWord 0x00221821 = .instr (.addu 3 1 2) := by decide
theorem test_decode_and : decodeWord 0x00221824 = .instr (.and 3 1 2) := by decide
theorem test_decode_andi : decodeWord 0x3022FF00 = .instr (.andi 2 1 0xFF00) := by decide
theorem test_decode_beq : decodeWord 0x10220003 = .instr (.beq 1 2 3) := by decide
theorem test_decode_bne : decodeWord 0x1422FFFE = .instr (.bne 1 2 0xFFFE) := by decide
theorem test_decode_j : decodeWord 0x08100004 = .instr (.j 0x0100004) := by decide
theorem test_decode_jal : decodeWord 0x0C100004 = .instr (.jal 0x0100004) := by decide
theorem test_decode_jr : decodeWord 0x03E00008 = .instr (.jr 31) := by decide
theorem test_decode_lui : decodeWord 0x3C021000 = .instr (.lui 2 0x1000) := by decide
theorem test_decode_lw : decodeWord 0x8C620004 = .instr (.lw 2 4 3) := by decide
theorem test_decode_nor : decodeWord 0x00221827 = .instr (.nor 3 1 2) := by decide
theorem test_decode_or : decodeWord 0x00221825 = .instr (.or 3 1 2) := by decide
theorem test_decode_ori : decodeWord 0x34420004 = .instr (.ori 2 2 4) := by decide
theorem test_decode_sll : decodeWord 0x00021900 = .instr (.sll 3 2 4) := by decide
theorem test_decode_sltu : decodeWord 0x0022182B = .instr (.sltu 3 1 2) := by decide
theorem test_decode_srl : decodeWord 0x00021902 = .instr (.srl 3 2 4) := by decide
theorem test_decode_subu : decodeWord 0x00221823 = .instr (.subu 3 1 2) := by decide
theorem test_decode_sw : decodeWord 0xAC62FFFC = .instr (.sw 2 0xFFFC 3) := by decide
theorem test_decode_nop : decodeWord 0x00000000 = .instr nop := by decide

/-- The pattern `000000 sssss ttttt ddddd 00000 100000` of R73 with rs = 1, rt = 2, rd = 3, bit by bit. -/
theorem test_decode_add_bits :
    decodeWord 0b00000000001000100001100000100000 = .instr (.add 3 1 2) := by decide

/-- The pattern `101011 sssss ttttt iiiiiiiiiiiiiiii` with base = 3, rt = 2, offset = -4, bit by bit. -/
theorem test_decode_sw_bits :
    decodeWord 0b10101100011000101111111111111100 = .instr (.sw 2 0xFFFC 3) := by decide

theorem test_decodeTableWord_lui : decodeTableWord 32 0x3C021000 = some (.lui 2 0x1000) := by decide

/-! ### Ill-formed words: each must-be-zero field, and opcodes and function codes the maps do not list -/

theorem test_wordWellFormed_accepts : wordWellFormed 0x00221820 = true := by decide
theorem test_reserved_funct_sub :
    wordWellFormed 0x00221822 = false ∧ decodeWord 0x00221822 = .reserved .functionCode := by decide
theorem test_reserved_opcode_lb :
    wordWellFormed 0x80620004 = false ∧ decodeWord 0x80620004 = .reserved .primaryOpcode := by decide
theorem test_reserved_opcode_top :
    wordWellFormed 0xFFFFFFFF = false ∧ decodeWord 0xFFFFFFFF = .reserved .primaryOpcode := by decide
theorem test_reserved_add_sa :
    wordWellFormed 0x00221860 = false ∧ decodeWord 0x00221860 = .reserved .mustBeZero := by decide
theorem test_reserved_srl_rs :
    wordWellFormed 0x00200002 = false ∧ decodeWord 0x00200002 = .reserved .mustBeZero := by decide
theorem test_reserved_jr_sa :
    wordWellFormed 0x03E00408 = false ∧ decodeWord 0x03E00408 = .reserved .mustBeZero := by decide
theorem test_reserved_jr_rt :
    wordWellFormed 0x03E10008 = false ∧ decodeWord 0x03E10008 = .reserved .mustBeZero := by decide
theorem test_reserved_jr_rd :
    wordWellFormed 0x03E00808 = false ∧ decodeWord 0x03E00808 = .reserved .mustBeZero := by decide
theorem test_reserved_lui_rs :
    wordWellFormed 0x3C221000 = false ∧ decodeWord 0x3C221000 = .reserved .mustBeZero := by decide

/-- R63: no word matches two rows of the table, since two rows differ in a bit both masks hold. -/
theorem test_rows_disjoint :
    encodingTable.Pairwise fun p q => p.bits &&& q.mask ≠ q.bits &&& p.mask := by decide

/-! ### Launches: a good one, and one that fails each check of R231 -/

/-- Registers with the values of the examples: x1 = 5, x2 = 7, x3 = 0x10000000, x4 = 0x80000000, x5 = 0xFFFFFFFF,
x6 = 0x0040000A, x7 = 0x7FFFFFFF, x8 = 0x12345678. -/
def regs : Vector Word 32 :=
  ((((((((Vector.replicate 32 0).set 1 5).set 2 7).set 3 0x10000000).set 4 0x80000000).set 5 0xFFFFFFFF).set 6
    0x0040000A).set 7 0x7FFFFFFF).set 8 0x12345678

/-- Two text words, a branch to itself and a no-operation, and two data words. -/
def demo : LaunchParams where
  textBase := 0x00400000
  text := [0x1000FFFF, 0x00000000]
  endAddrGiven := some 0x00400008
  data := [(0x10000000, 5), (0x10000004, 0xCAFEF00D)]
  regsInit := regs
  regsInitHi := (Vector.replicate 32 0).set 5 0xFFFFFFFF
  endian := .big
  mode64 := false
  addressBitsAbove32 := 8

theorem test_launch_good : demo.wellFormed = true := by decide
/-- R6: `ENTRY` defaults to `TEXT_BASE`, `END_ADDR` to the address past the text. -/
theorem test_launch_defaults : demo.entry = 0x00400000 ∧
    ({ demo with endAddrGiven := none } : LaunchParams).endAddr = 0x00400008 := by decide
theorem test_launch_data_beyond : ({ demo with data := [(0x100000000, 5)] } : LaunchParams).addressesFit = false ∧
    ({ demo with mode64 := true, data := [(0x100000000, 5)] } : LaunchParams).addressesFit = true := by decide
theorem test_launch_base_misaligned : ({ demo with textBase := 0x00400002 } : LaunchParams).textFits = false := by decide
theorem test_launch_text_too_high : ({ demo with textBase := 0xFFFFFFFC } : LaunchParams).textFits = false := by decide
theorem test_launch_entry_outside : ({ demo with entryGiven := some 0x00400008 } : LaunchParams).entryInText = false := by decide
theorem test_launch_entry_misaligned : ({ demo with entryGiven := some 0x00400002 } : LaunchParams).entryInText = false := by decide
theorem test_launch_end_misaligned : ({ demo with endAddrGiven := some 0x00400009 } : LaunchParams).endAligned = false := by decide
theorem test_launch_data_misaligned : ({ demo with data := [(0x10000001, 5)] } : LaunchParams).dataPlaced = false := by
  decide
theorem test_launch_data_in_text : ({ demo with data := [(0x00400004, 5)] } : LaunchParams).dataPlaced = false := by
  decide
theorem test_launch_end_is_data : ({ demo with endAddrGiven := some 0x10000000 } : LaunchParams).endNotData = false := by decide
theorem test_launch_data_twice :
    ({ demo with data := [(0x10000000, 5), (0x10000000, 6)] } : LaunchParams).dataDistinct = false := by decide

/-- The launched machine. -/
def s0 : State := State.ofLaunch demo

/-- The same machine about to execute a delay slot whose pending target is 0x00400000. -/
def slot : State := { s0 with pc := 0x00400004, npc := 0x00400000, ds := true }

/-- The same machine in MODE64; x4 = 0x80000000 has a zero upper half there, so it is no valid operand. -/
def wide : State := State.ofLaunch { demo with mode64 := true }

/-- The low half of a register after an instruction. -/
def xAfter (i : Instr) (s : State) (r : Reg) : Option Word :=
  match exec i s with
  | .next t => some (t.x r)
  | _ => none

/-- A 64-bit register after an instruction. -/
def x64After (i : Instr) (s : State) (r : Reg) : Option DWord :=
  match exec i s with
  | .next t => some (t.x64 r)
  | _ => none

/-- `pc`, `npc` and `ds` after an instruction. -/
def pcsAfter (i : Instr) (s : State) : Option (Word × Word × Bool) :=
  match exec i s with
  | .next t => some (t.pc, t.npc, t.ds)
  | _ => none

/-- The whole addresses after an instruction, in the mode of the machine. -/
def addressesAfter (i : Instr) (s : State) : Option (Addr × Addr) :=
  match exec i s with
  | .next t => some (t.pcAddr, t.npcAddr)
  | _ => none

/-- A word of memory after an instruction. -/
def wordAfter (i : Instr) (s : State) (a : Addr) : Option Word :=
  match exec i s with
  | .next t => t.memRead a
  | _ => none

/-- The exception or end an instruction stops with. -/
def faultOf (o : StepResult) : Option Fault :=
  match o with
  | .fault f => some f
  | _ => none

/-- The refusal an instruction stops with. -/
def refusalOf (o : StepResult) : Option Refusal :=
  match o with
  | .refused r => some r
  | _ => none

/-! ### One or two steps per instruction -/

theorem test_add_sum : xAfter (.add 3 1 2) s0 3 = some 12 := by decide
/-- 0x7FFFFFFF + 5 is not representable; `rd = 0` does not matter (2.2). -/
theorem test_add_overflow : faultOf (exec (.add 0 7 1) s0) = some (.raised .overflow 0x00400000) := by decide
theorem test_addi_minus : xAfter (.addi 2 1 0xFFFF) s0 2 = some 4 := by decide
theorem test_addi_overflow : faultOf (exec (.addi 2 4 0xFFFF) s0) = some (.raised .overflow 0x00400000) := by decide
theorem test_addiu_wraps : xAfter (.addiu 2 4 0xFFFF) s0 2 = some 0x7FFFFFFF := by decide
theorem test_addu_wraps : xAfter (.addu 3 4 4) s0 3 = some 0 := by decide
theorem test_addu_in_place : xAfter (.addu 1 1 1) s0 1 = some 10 := by decide
theorem test_subu_borrow : xAfter (.subu 3 1 2) s0 3 = some 0xFFFFFFFE := by decide
/-- Unsigned: 0x80000000 is not below 0x7FFFFFFF (2.4). -/
theorem test_sltu_unsigned : xAfter (.sltu 3 4 7) s0 3 = some 0 ∧ xAfter (.sltu 3 7 4) s0 3 = some 1 := by decide
theorem test_and : xAfter (.and 3 8 5) s0 3 = some 0x12345678 := by decide
theorem test_or : xAfter (.or 3 8 4) s0 3 = some 0x92345678 := by decide
theorem test_nor_zero : xAfter (.nor 3 0 0) s0 3 = some 0xFFFFFFFF := by decide
/-- Zero-extension: only the low half is kept (2.6). -/
theorem test_andi_zero_extends : xAfter (.andi 2 5 0xFFFF) s0 2 = some 0x0000FFFF := by decide
theorem test_ori_zero_extends : xAfter (.ori 2 8 0x8000) s0 2 = some 0x1234D678 := by decide
theorem test_lui : xAfter (.lui 2 0x8000) s0 2 = some 0x80000000 := by decide
theorem test_sll : xAfter (.sll 3 8 4) s0 3 = some 0x23456780 := by decide
theorem test_srl_logical : xAfter (.srl 3 4 1) s0 3 = some 0x40000000 := by decide
theorem test_write_zero_discarded : xAfter (.addu 0 1 2) s0 0 = some 0 := by decide
/-- 2.8: `beq` taken and not taken at 0x00400000. -/
theorem test_beq_taken : pcsAfter (.beq 1 1 3) s0 = some (0x00400004, 0x00400010, true) := by decide
theorem test_beq_not_taken : pcsAfter (.beq 1 2 3) s0 = some (0x00400004, 0x00400008, true) := by decide
theorem test_bne_backward :
    pcsAfter (.bne 1 2 0xFFFE) { s0 with pc := 0x00400010, npc := 0x00400014 } =
      some (0x00400014, 0x0040000C, true) := by decide
/-- 2.9: the region is that of the delay slot. -/
theorem test_j_region :
    pcsAfter (.j 0) { s0 with pc := 0x0FFFFFFC, npc := 0x10000000 } = some (0x10000000, 0x10000000, true) := by decide
theorem test_jal_link :
    xAfter (.jal 0x0100004) s0 31 = some 0x00400008 ∧
      pcsAfter (.jal 0x0100004) s0 = some (0x00400004, 0x00400010, true) := by decide
theorem test_jr_keeps_low_bits : pcsAfter (.jr 6) s0 = some (0x00400004, 0x0040000A, true) := by decide
theorem test_slot_advances : pcsAfter nop slot = some (0x00400000, 0x00400004, false) := by decide
/-- 2.10: `lw $2, 4($3)`. -/
theorem test_lw : xAfter (.lw 2 4 3) s0 2 = some 0xCAFEF00D := by decide
theorem test_lw_misaligned :
    faultOf (exec (.lw 2 2 3) s0) = some (.raised (.addressError .load 0x10000002) 0x00400000) := by decide
theorem test_sw : wordAfter (.sw 8 4 3) s0 0x10000004 = some 0x12345678 := by decide
theorem test_sw_to_text :
    refusalOf (exec (.sw 8 0 1) { s0 with gpr := s0.gpr.set 1 0x00400004 }) = some (.storeToText 0x00400004) := by decide
theorem test_sw_unallocated : refusalOf (exec (.sw 8 8 3) s0) = some (.unallocatedAccess 0x10000008) := by decide
theorem test_lw_wraps : (s0.effectiveAddress 5 9) = 8 := by decide
theorem test_transfer_in_slot :
    refusalOf (exec (.j 2) slot) = some (.controlTransferInDelaySlot 0x00400004) := by decide

/-! ### The step -/

/-- P12: `beq $0, $0, -1` at 0x00400000. -/
theorem test_step_branch :
    (match step s0 with | .next t => some (t.pc, t.npc, t.ds) | _ => none) =
      some (0x00400004, 0x00400000, true) := by decide
theorem test_step_over : faultOf (step { s0 with pc := 0x00400008 }) = some .runOver := by decide
/-- P13: END_ADDR reached with `ds = 1` is not an end. -/
theorem test_step_end_in_slot :
    refusalOf (step { s0 with pc := 0x00400008, ds := true }) = some (.fetchOutsideText 0x00400008) := by decide
theorem test_step_misaligned :
    faultOf (step { s0 with pc := 0x0040000A }) =
      some (.raised (.addressError .fetch 0x0040000A) 0x0040000A) := by decide
theorem test_reset_over : faultOf (step State.reset) = some .runOver := by decide
theorem test_reset_runs_placed :
    (match step (State.reset.withFetchWord 32 0x24010005) with | .next t => some (t.x 1) | _ => none) =
      some 5 := by decide
theorem test_little_endian_bytes :
    Memory.readByte (State.ofLaunch { demo with endian := .little }).mem 0x10000004 = some 0x0D ∧
      Memory.readByte s0.mem 0x10000004 = some 0xCA := by decide

/-! ### The assembler's part -/

theorem test_la : expandLa 2 0x10000004 = [.lui 2 0x1000, .ori 2 2 4] ∧ expandLa 2 0x10000000 = [.lui 2 0x1000] := by
  decide
/-- P1: `bne $1, $0, loop` at 0x00400010 with the label at 0x00400008 has offset -3. -/
theorem test_branchOffset : branchOffsetTo 0x00400010 0x00400008 = some 0xFFFD := by decide
theorem test_branchOffset_far : branchOffsetTo 0x00400000 0x00420004 = none := by decide
theorem test_jumpField : jumpFieldTo 0x00400000 0x00400010 = some 0x0100004 := by decide

/-! ### The MODE64 annex -/

/-- R34: SLL with a zero shift amount truncates to 32 bits and sign-extends. -/
theorem test_mode64_sll_truncates : x64After (.sll 9 4 0) wide 9 = some 0xFFFFFFFF80000000 := by decide
theorem test_mode64_lui : x64After (.lui 9 0x8000) wide 9 = some 0xFFFFFFFF80000000 := by decide
theorem test_mode64_addu : x64After (.addu 9 5 1) wide 9 = some 4 := by decide
theorem test_mode64_nor : x64After (.nor 9 1 0) wide 9 = some 0xFFFFFFFFFFFFFFFA := by decide
theorem test_mode64_invalid :
    validWord (wide.x64 4) = false ∧ validWord (wide.x64 5) = true ∧ validWord (wide.x64 1) = true := by decide

/-- With 40-bit addresses: the sum of R49 wraps at 2^40, `jr` goes to 40 bits of the register. -/
theorem test_mode64_address_wraps : wide.effectiveAddress 5 9 = 8 ∧ wide.effectiveAddress 5 0 = 0xFFFFFFFFFF := by decide
theorem test_mode64_jr : addressesAfter (.jr 5) wide = some (0x00400004, 0xFFFFFFFFFF) := by decide
theorem test_mode64_beq_back :
    addressesAfter (.beq 0 0 0xFFFE) { wide with pc := 0, npc := 4 } = some (4, 0xFFFFFFFFFC) := by decide
theorem test_mode64_carries :
    addressesAfter nop { wide with npc := 0xFFFFFFFC } = some (0xFFFFFFFC, 0x100000000) := by decide

/-! ### Witnesses: for each statement with hypotheses, a state and operands that meet them -/

theorem witness_MatchAndMask : (⟨"JR", 0x00000008, 0xFC1FFFFF⟩ : EncodingRow) ∈ encodingTable ∧
    (0x03E00008 : Word) &&& 0xFC1FFFFF = 0x00000008 := by decide

theorem witness_EncodeOfDecode : decodeWord 0x3C021000 = .instr (.lui 2 0x1000) := by decide

/-- The launched machine with a reserved word as its first instruction. -/
def reservedFirst : State := State.ofLaunch { demo with text := [0x00221822, 0] }

theorem witness_ReservedExactlyOutsideTheTable :
    Fetches reservedFirst 0x00221822 ∧ ∀ row ∈ encodingTable, (0x00221822 : Word) &&& row.mask ≠ row.bits :=
  ⟨⟨by decide, by decide, by decide, by decide, by decide⟩, by decide⟩

theorem witness_StepRunsTheDecodedInstruction :
    Fetches s0 0x1000FFFF ∧ decodeWord 0x1000FFFF = .instr (.beq 0 0 0xFFFF) :=
  ⟨⟨by decide, by decide, by decide, by decide, by decide⟩, by decide⟩

/-- The end of the run at a misaligned address outside the text: step 1 comes before steps 2 and 3. -/
def overMisaligned : State := { s0 with pc := 0x00500001, launch := { s0.launch with endAddr := 0x00500001 } }

theorem witness_FetchStopsInOrder_over :
    overMisaligned.pcAddr = overMisaligned.launch.endAddr ∧ overMisaligned.ds = false ∧
      overMisaligned.pcAddr.toNat % 4 ≠ 0 ∧ faultOf (step overMisaligned) = some .runOver := by decide

theorem witness_FetchStopsInOrder_misaligned :
    ¬(({ s0 with pc := 0x00400001 } : State).pcAddr = s0.launch.endAddr ∧ s0.ds = false) ∧
      ({ s0 with pc := 0x00400001 } : State).pcAddr.toNat % 4 ≠ 0 := by decide

theorem witness_FetchStopsInOrder_above :
    ¬(({ s0 with pc := 0x0040000C } : State).pcAddr = s0.launch.endAddr ∧ s0.ds = false) ∧
      (0x0040000C : Word).toNat % 4 = 0 ∧
      s0.launch.textBase.toNat + 4 * s0.launch.textLen ≤ ({ s0 with pc := 0x0040000C } : State).pcAddr.toNat := by decide

theorem witness_FetchStopsInOrder_below :
    ¬(({ s0 with pc := 0x003FFFFC } : State).pcAddr = s0.launch.endAddr ∧ s0.ds = false) ∧
      (0x003FFFFC : Word).toNat % 4 = 0 ∧
      ({ s0 with pc := 0x003FFFFC } : State).pcAddr.toNat < s0.launch.textBase.toNat := by decide

theorem witness_PlacedInstructionRunsNext :
    wordAligned State.reset.pcAddr = true ∧ decodeWord 0x24010005 = .instr (.addiu 1 0 5) := by decide

theorem witness_Launch : demo.wellFormed = true ∧ 1 < demo.text.length ∧ (0x10000004, 0xCAFEF00D) ∈ demo.data ∧
    wordAligned (0x10000008 : Addr) = true ∧ demo.inText 0x10000008 = false ∧ ∀ d ∈ demo.data, d.1 ≠ 0x10000008 :=
  ⟨by decide, by decide, by simp [demo], by decide, by decide, by simp [demo]⟩

/-- The state after reset with the no-operation placed at address 0. -/
def placed : State := State.reset.withFetchWord 32 0

theorem placed_mem : placed.mem = [(0, 0), (1, 0), (2, 0), (3, 0)] := by decide

theorem placed_byte (a : Nat) : (Memory.readByte placed.mem a).isSome = decide (a < 4) := by
  rw [placed_mem]
  simp only [Memory.readByte]
  split_ifs <;> simp <;> omega

theorem placed_inv : Inv placed where
  memory := by decide
  wholeWords a := by
    rw [placed_byte, placed_byte, decide_eq_decide]
    omega
  inSpace a h := by
    rw [placed_byte, decide_eq_true_eq] at h
    have : (4 : Nat) ≤ 2 ^ placed.alen := by decide
    omega
  textFits := by decide
  textLoaded := by decide
  endAligned := by decide
  pcFits := by decide
  nextFollows _ := by decide

/-- The hypotheses of the statements about one step from a state that meets the invariant. -/
theorem witness_StepKeepsTheInvariant : Inv placed ∧ step placed = .next placed.advance :=
  ⟨placed_inv, by rfl⟩

theorem witness_NextAddressFollowsOutsideSlots : step placed = .next placed.advance ∧ placed.advance.ds = false :=
  ⟨by rfl, by decide⟩

theorem witness_OnlyJrMisaligns : (∀ rs, nop ≠ .jr rs) ∧ placed.pcAddr.toNat % 4 = 0 ∧ placed.npcAddr.toNat % 4 = 0 ∧
    exec nop placed = .next placed.advance :=
  ⟨fun _ h => (nomatch h), by decide, by decide, by rfl⟩

/-- The 32-bit mode, for every result statement that asks no more. -/
theorem witness_mode32 : s0.launch.mode64 = false := by decide

theorem witness_AddResult_highest : -2 ^ 31 ≤ (s0.x 0).toInt + (s0.x 7).toInt ∧
    (s0.x 0).toInt + (s0.x 7).toInt < 2 ^ 31 := by decide

theorem witness_AddResult_lowest : -2 ^ 31 ≤ (s0.x 4).toInt + (s0.x 0).toInt ∧
    (s0.x 4).toInt + (s0.x 0).toInt < 2 ^ 31 := by decide

theorem witness_AddResult_overflow :
    ¬(-2 ^ 31 ≤ (s0.x 4).toInt + (s0.x 5).toInt ∧ (s0.x 4).toInt + (s0.x 5).toInt < 2 ^ 31) := by decide

theorem witness_AddiResult_sum : -2 ^ 31 ≤ (s0.x 4).toInt + (0 : Imm16).toInt ∧
    (s0.x 4).toInt + (0 : Imm16).toInt < 2 ^ 31 := by decide

theorem witness_AddiResult_overflow :
    ¬(-2 ^ 31 ≤ (s0.x 7).toInt + (1 : Imm16).toInt ∧ (s0.x 7).toInt + (1 : Imm16).toInt < 2 ^ 31) := by decide

theorem witness_SltuResult : (s0.x 7).toNat < (s0.x 4).toNat ∧ (s0.x 7).toNat ≤ (s0.x 7).toNat := by decide

theorem witness_transfers : s0.launch.mode64 = false ∧ s0.ds = false ∧ s0.x 1 = s0.x 1 ∧ s0.x 1 ≠ s0.x 2 := by decide

/-- A `jr $6` with a no-operation in its slot (P5's shape). -/
def jrMisaligned : State := State.ofLaunch { demo with text := [0x00C00008, 0] }

theorem witness_JumpRegisterResult : jrMisaligned.launch.mode64 = false ∧ jrMisaligned.ds = false ∧
    (jrMisaligned.x 6).toNat % 4 ≠ 0 ∧ wordAligned jrMisaligned.launch.endAddr = true ∧
    (match exec (.jr 6) jrMisaligned with
      | .next t => (match step t with | .next u => some u.pc | _ => none)
      | _ => none) = some (jrMisaligned.x 6) := by decide

theorem witness_TransferInDelaySlotRefused : (Instr.jr 6).isTransfer = true ∧ slot.ds = true := by decide

theorem witness_DelaySlot : (Instr.beq 1 2 3).isTransfer = true ∧ s0.npcAddr.toNat = (s0.pcAddr.toNat + 4) % 2 ^ s0.alen ∧ s0.launch.mode64 = false ∧
    s0.x 1 ≠ s0.x 2 ∧
    (match exec (.beq 1 2 3) s0 with
      | .next t => (match step t with | .next u => some u.pc | _ => none)
      | _ => none) = some (s0.pc + 8) := by decide

theorem witness_DelaySlot_bne : (Instr.bne 1 1 3).isTransfer = true ∧ s0.launch.mode64 = false ∧
    (match exec (.bne 1 1 3) s0 with
      | .next t => (match step t with | .next u => some u.pc | _ => none)
      | _ => none) = some (s0.pc + 8) := by decide

theorem witness_LoadWordResult_misaligned : (s0.effectiveAddress 3 1).toNat % 4 ≠ 0 := by decide
theorem witness_LoadWordResult_loads : (s0.effectiveAddress 3 4).toNat % 4 = 0 ∧
    s0.memRead (s0.effectiveAddress 3 4) = some 0xCAFEF00D := by decide
theorem witness_LoadWordResult_absent : (s0.effectiveAddress 3 8).toNat % 4 = 0 ∧
    s0.memRead (s0.effectiveAddress 3 8) = none := by decide

theorem witness_StoreWordResult_misaligned : (s0.effectiveAddress 6 0).toNat % 4 ≠ 0 := by decide
theorem witness_StoreWordResult_text : (s0.effectiveAddress 6 0xFFFA).toNat % 4 = 0 ∧
    s0.inText (s0.effectiveAddress 6 0xFFFA) = true := by decide
theorem witness_StoreWordResult_absent : (s0.effectiveAddress 6 0xFFFE).toNat % 4 = 0 ∧
    s0.inText (s0.effectiveAddress 6 0xFFFE) = false ∧ s0.memRead (s0.effectiveAddress 6 0xFFFE) = none := by decide
theorem witness_StoreWordResult_stores : (s0.effectiveAddress 3 4).toNat % 4 = 0 ∧
    s0.inText (s0.effectiveAddress 3 4) = false ∧ s0.memRead (s0.effectiveAddress 3 4) ≠ none := by decide

theorem witness_LoadReturnsTheLastStore : s0.launch.mode64 = false ∧
    (match exec (.sw 8 4 3) s0 with
      | .next t => some (t.effectiveAddress 3 4 = s0.effectiveAddress 3 4)
      | _ => none) = some True := by
  refine ⟨by decide, ?_⟩
  have h : exec (.sw 8 4 3) s0 = .next (s0.putWord 0x10000004 0x12345678).advance := by rfl
  rw [h]
  simp only [Option.some.injEq, eq_iff_iff, iff_true]
  decide

theorem witness_ByteOrderOfAWord : s0.memRead 0x10000004 = some 0xCAFEF00D ∧ s0.launch.endian = .big ∧
    (State.ofLaunch { demo with endian := .little }).memRead 0x10000004 = some 0xCAFEF00D ∧
    (State.ofLaunch { demo with endian := .little }).launch.endian = .little := by decide

/-- Reset memory with the no-operation, in both byte orders: the bytes are alike, the words too. -/
theorem witness_ByteOrderIsUnobservable :
    SameWords State.reset { State.reset with launch := { State.reset.launch with endian := .little } } where
  gpr := rfl
  gprHi := rfl
  pc := rfl
  pcHi := rfl
  npc := rfl
  npcHi := rfl
  ds := rfl
  draws := rfl
  textBase := rfl
  textLen := rfl
  endAddr := rfl
  mode64 := rfl
  addressBits := rfl
  words _ _ := rfl

/-- The constants and labels at the ends of the ranges of R82, and just past them. -/
theorem witness_AssembledRanges :
    branchOffsetTo 0x00400000 0x00420000 = some 0x7FFF ∧ branchOffsetTo 0x00400000 0x00420004 = none ∧
    branchOffsetTo 0x00400000 0x003E0004 = some 0x8000 ∧ branchOffsetTo 0x00400000 0x003E0000 = none ∧
    jumpFieldTo 0x0FFFFFFC 0x10000000 = some 0 ∧ jumpFieldTo 0x0FFFFFFC 0x0FFFFFFC = none ∧
    signedConstant (-32768) = some 0x8000 ∧ signedConstant (-32769) = none ∧
    unsignedConstant 65536 = none ∧ shiftConstant 32 = none := by decide

theorem witness_RefusalsAreOnlyThese :
    refusalOf (step { s0 with pc := 0x00400008, ds := true }) = some (.fetchOutsideText 0x00400008) ∧
    refusalOf (step reservedFirst) = some (.reservedEncoding 0x00400000 0x00221822) ∧
    refusalOf (step { s0 with ds := true }) = some (.controlTransferInDelaySlot 0x00400000) ∧
    refusalOf (step (State.ofLaunch { demo with text := [0x8C620008] })) = some (.unallocatedAccess 0x10000008) ∧
    refusalOf (step (State.ofLaunch { demo with text := [0xACC0FFF6] })) = some (.storeToText 0x00400000) := by decide

theorem witness_OnlyTheDestinationChanges : exec nop placed = .next placed.advance := by rfl

theorem witness_UnreadRegistersPlayNoPart : (5 : Reg) ∉ (Instr.addu 3 1 2).reads ∧
    (3 : Reg) ∉ (Instr.addu 3 1 2).reads ∧ (3 : Reg) ∈ (Instr.addu 3 1 2).writes := by decide

theorem witness_OnlyStoreWordChangesMemory : (∀ rt offset base, nop ≠ .sw rt offset base) ∧
    exec nop placed = .next placed.advance :=
  ⟨fun _ _ _ h => (nomatch h), by rfl⟩

theorem witness_LaLeavesTheAddress : (0x10000000 : Word).toNat % 2 ^ 16 = 0 ∧ (0x10000004 : Word).toNat % 2 ^ 16 ≠ 0 := by
  decide

theorem witness_AssembledOperands : s0.launch.mode64 = false ∧ branchOffsetTo s0.pc 0x00400010 = some 3 ∧
    jumpFieldTo s0.pc 0x00400010 = some 0x0100004 ∧ signedConstant (-32768) = some 0x8000 ∧
    unsignedConstant 65535 = some 0xFFFF ∧ shiftConstant 31 = some 31 := by decide

theorem witness_Mode64Words : wide.launch.mode64 = true ∧ validWord (wide.x64 5) = true ∧
    validWord (wide.x64 1) = true := by decide

theorem witness_Mode64CheckedSums_sum : -2 ^ 31 ≤ (wide.x 5).toInt + (wide.x 1).toInt ∧
    (wide.x 5).toInt + (wide.x 1).toInt < 2 ^ 31 ∧ -2 ^ 31 ≤ (wide.x 5).toInt + (1 : Imm16).toInt ∧
    (wide.x 5).toInt + (1 : Imm16).toInt < 2 ^ 31 := by decide

theorem witness_Mode64CheckedSums_overflow : validWord (wide.x64 7) = true ∧
    ¬(-2 ^ 31 ≤ (wide.x 7).toInt + (1 : Imm16).toInt ∧ (wide.x 7).toInt + (1 : Imm16).toInt < 2 ^ 31) ∧
    ¬(-2 ^ 31 ≤ (wide.x 7).toInt + (wide.x 1).toInt ∧ (wide.x 7).toInt + (wide.x 1).toInt < 2 ^ 31) := by decide

theorem witness_Mode64InvalidOperands : wide.launch.mode64 = true ∧ validWord (wide.x64 4) = false ∧
    validWord (wide.x64 1) = true := by decide

theorem witness_Mode64WholeRegister : wide.launch.mode64 = true ∧ (wide.x64 1).toNat < (wide.x64 5).toNat := by decide

theorem witness_Mode64Transfers : wide.launch.mode64 = true ∧ wide.ds = false ∧ wide.x64 1 ≠ wide.x64 5 := by decide

/-- A machine of MODE64 with 40-bit addresses, its data at 2^36 and register 9 pointing there. -/
def wideData : State :=
  { State.ofLaunch { demo with mode64 := true, data := [(0x1000000004, 7)] } with
    gprHi := (Vector.replicate 32 0).set 9 0x10 }

theorem witness_Mode64Memory : wideData.launch.mode64 = true ∧ wideData.alen = 40 ∧
    wideData.effectiveAddress 9 4 = 0x1000000004 ∧ wideData.inText (wideData.effectiveAddress 9 4) = false ∧
    wideData.memRead (wideData.effectiveAddress 9 4) = some 7 := by decide

end Sys2Proof.Tests
end

section
/-! PROOFS. The launch state (R37): what filling memory leaves at each word, where a well-formed launch puts its words, and
O11. -/

namespace Sys2Proof.Machine

/-! ### Filling memory with a list of words -/

section
variable (e : Endian) (m : List Host.Cell) {cells : List (Addr × Word)}

/-- A word-aligned word that the list does not name is as before. -/
theorem readWord_writeWords_ne {a : Addr} (hc : ∀ d ∈ cells, wordAligned d.1 = true) (ha : wordAligned a = true)
    (hne : ∀ d ∈ cells, d.1 ≠ a) : Memory.readWord e (Memory.writeWords e m cells) a = Memory.readWord e m a := by
  induction cells with
  | nil => rfl
  | cons c rest ih =>
    obtain ⟨hc0, hrest⟩ := List.forall_mem_cons.1 hc
    obtain ⟨hne0, hnerest⟩ := List.forall_mem_cons.1 hne
    exact (readWord_writeWord_ne e _ c.1 a c.2 hc0 ha hne0.symm).trans (ih hrest hnerest)

/-- A listed word is in memory, where no address is listed twice. -/
theorem readWord_writeWords_mem {d : Addr × Word} (hc : ∀ d ∈ cells, wordAligned d.1 = true)
    (hn : (cells.map Prod.fst).Nodup) (hd : d ∈ cells) :
    Memory.readWord e (Memory.writeWords e m cells) d.1 = some d.2 := by
  induction cells with
  | nil => cases hd
  | cons c rest ih =>
    obtain ⟨hc0, hrest⟩ := List.forall_mem_cons.1 hc
    obtain ⟨hnew, hnrest⟩ := List.nodup_cons.1 hn
    rcases List.mem_cons.1 hd with rfl | hd
    · exact readWord_writeWord_self e _ d.1 d.2
    · have hne : d.1 ≠ c.1 := fun h => hnew (h ▸ List.mem_map_of_mem hd)
      exact (readWord_writeWord_ne e _ c.1 d.1 c.2 hc0 (hrest d hd) hne).trans (ih hrest hnrest hd)

end

/-- The `k`-th text word has the address `a + 4 * k`. -/
theorem textCells_eq_mapIdx (a : Addr) (text : List Word) :
    textCells a text = text.mapIdx fun k w => (a + BitVec.ofNat 64 (4 * k), w) := by
  induction text generalizing a with
  | nil => rfl
  | cons w rest ih =>
    have shift (k : Nat) : a + 4#64 + BitVec.ofNat 64 (4 * k) = a + BitVec.ofNat 64 (4 * (k + 1)) := by
      rw [Nat.mul_succ, Nat.add_comm, BitVec.ofNat_add, BitVec.add_assoc]
    simp [textCells, ih, shift]

/-- An address is the one its two halves make, in either mode. -/
theorem address_of_halves {mode64 : Bool} {above : Fin 33} {a : Addr} (h : a.toNat < 2 ^ addressBits mode64 above) :
    (if mode64 then a.extractLsb' 32 32 ++ a.extractLsb' 0 32 else wordAddress (a.extractLsb' 0 32)) = a := by
  cases mode64
  case true => exact halves_append a
  case false =>
    apply BitVec.eq_of_toNat_eq
    have h32 : a.toNat < 2 ^ 32 := h
    rw [if_neg Bool.false_ne_true, toNat_wordAddress, Laws.toNat_field]
    omega

/-! ### A well-formed launch -/

/-- Every word a launch puts in memory, with its address (R37, R47). -/
def launchCells (p : LaunchParams) : List (Addr × Word) := textCells p.textBase p.text ++ p.data

theorem ofLaunch_memRead (p : LaunchParams) (a : Addr) :
    (State.ofLaunch p).memRead a = Memory.readWord p.endian (Memory.writeWords p.endian [] (launchCells p)) a := rfl

section
variable {p : LaunchParams}

theorem launch_inText_iff {a : Addr} : p.inText a = true ↔
    p.textBase.toNat ≤ a.toNat ∧ a.toNat < p.textBase.toNat + 4 * p.text.length := by
  simp [LaunchParams.inText]

theorem wellFormed_iff : p.wellFormed = true ↔
    p.textFits = true ∧ p.entryInText = true ∧ p.endAligned = true ∧ p.dataPlaced = true ∧ p.endNotData = true ∧
      p.addressesFit = true ∧ p.dataDistinct = true := by
  simp [LaunchParams.wellFormed, and_assoc]

variable (h : p.wellFormed = true)
include h

theorem textBase_aligned_of_wellFormed : p.textBase.toNat % 4 = 0 := by
  obtain ⟨ht, -⟩ := wellFormed_iff.1 h
  exact aligned_toNat (Bool.and_eq_true_iff.1 ht).1

theorem text_end_le_of_wellFormed : p.textBase.toNat + 4 * p.text.length ≤ 2 ^ p.alen := by
  obtain ⟨ht, -⟩ := wellFormed_iff.1 h
  exact of_decide_eq_true (Bool.and_eq_true_iff.1 ht).2

theorem entry_lt_of_wellFormed : p.entry.toNat < 2 ^ p.alen := by
  obtain ⟨-, he, -⟩ := wellFormed_iff.1 h
  have hin := launch_inText_iff.1 (Bool.and_eq_true_iff.1 he).2
  exact hin.2.trans_le (text_end_le_of_wellFormed h)

theorem data_placed_of_wellFormed {d : Addr × Word} (hd : d ∈ p.data) :
    wordAligned d.1 = true ∧ p.inText d.1 = false := by
  obtain ⟨-, -, -, hp, -⟩ := wellFormed_iff.1 h
  simpa using List.all_eq_true.1 hp d hd

theorem data_nodup_of_wellFormed : (p.data.map Prod.fst).Nodup := by
  obtain ⟨-, -, -, -, -, -, hn⟩ := wellFormed_iff.1 h
  exact of_decide_eq_true hn

/-- The text does not wrap: its words lie at `TEXT_BASE + 4 * k` as numbers. -/
theorem toNat_textAddress {k : Nat} (hk : k < p.text.length) :
    (p.textBase + BitVec.ofNat 64 (4 * k)).toNat = p.textBase.toNat + 4 * k := by
  have hfit := text_end_le_of_wellFormed h
  have hspace : 2 ^ p.alen ≤ 2 ^ 64 := Nat.pow_le_pow_right (by decide) (alen_bounds (State.ofLaunch p)).2
  rw [BitVec.toNat_add, BitVec.toNat_ofNat]
  omega

theorem textAddress_inText {k : Nat} (hk : k < p.text.length) :
    p.inText (p.textBase + BitVec.ofNat 64 (4 * k)) = true := by
  rw [launch_inText_iff, toNat_textAddress h hk]
  omega

theorem textAddress_aligned {k : Nat} (hk : k < p.text.length) :
    wordAligned (p.textBase + BitVec.ofNat 64 (4 * k)) = true := by
  have hb := textBase_aligned_of_wellFormed h
  refine beq_iff_eq.2 (BitVec.eq_of_toNat_eq ?_)
  rw [Laws.toNat_field, toNat_textAddress h hk]
  show _ = 0
  omega

/-- Every text word has an aligned address inside the text. -/
theorem textCells_placed {d : Addr × Word} (hd : d ∈ textCells p.textBase p.text) :
    wordAligned d.1 = true ∧ p.inText d.1 = true := by
  rw [textCells_eq_mapIdx] at hd
  obtain ⟨k, hk, rfl⟩ := List.mem_mapIdx.1 hd
  exact ⟨textAddress_aligned h hk, textAddress_inText h hk⟩

theorem textCells_nodup : ((textCells p.textBase p.text).map Prod.fst).Nodup := by
  rw [textCells_eq_mapIdx, List.Nodup, List.pairwise_iff_getElem]
  intro i j hi hj hij heq
  simp only [List.length_map, List.length_mapIdx] at hi hj
  simp only [List.getElem_map, List.getElem_mapIdx] at heq
  have hnum := congrArg BitVec.toNat heq
  rw [toNat_textAddress h hi, toNat_textAddress h hj] at hnum
  omega

theorem launchCells_aligned : ∀ d ∈ launchCells p, wordAligned d.1 = true := by
  intro d hd
  rcases List.mem_append.1 hd with ht | hd
  · exact (textCells_placed h ht).1
  · exact (data_placed_of_wellFormed h hd).1

/-- No address is listed twice: text words do not overlap, and no data word lies in the text. -/
theorem launchCells_nodup : ((launchCells p).map Prod.fst).Nodup := by
  rw [launchCells, List.map_append]
  refine List.nodup_append'.2 ⟨textCells_nodup h, data_nodup_of_wellFormed h, fun a ht hd => ?_⟩
  obtain ⟨c, hc, rfl⟩ := List.mem_map.1 ht
  obtain ⟨d, hd, heq⟩ := List.mem_map.1 hd
  have hin := (textCells_placed h hc).2
  have hout := (data_placed_of_wellFormed h hd).2
  rw [heq, hin] at hout
  cases hout

/-- Every word of the launch is in memory. -/
theorem ofLaunch_memRead_of_mem {d : Addr × Word} (hd : d ∈ launchCells p) :
    (State.ofLaunch p).memRead d.1 = some d.2 :=
  readWord_writeWords_mem p.endian [] (launchCells_aligned h) (launchCells_nodup h) hd

theorem ofLaunch_memRead_text {k : Nat} (hk : k < p.text.length) :
    (State.ofLaunch p).memRead (p.textBase + BitVec.ofNat 64 (4 * k)) = some p.text[k] := by
  refine ofLaunch_memRead_of_mem h (d := (_, p.text[k])) (List.mem_append_left _ ?_)
  rw [textCells_eq_mapIdx]
  exact List.mem_mapIdx.2 ⟨k, hk, rfl⟩

/-- No other word is in memory. -/
theorem ofLaunch_memRead_none {a : Addr} (ha : wordAligned a = true) (ht : p.inText a = false)
    (hd : ∀ d ∈ p.data, d.1 ≠ a) : (State.ofLaunch p).memRead a = none := by
  refine readWord_writeWords_ne p.endian [] (launchCells_aligned h) ha fun d hmem heq => ?_
  rcases List.mem_append.1 hmem with hmem | hmem
  · have hin := (textCells_placed h hmem).2
    rw [heq, ht] at hin
    cases hin
  · exact hd d hmem heq

theorem ofLaunch_pcAddr : (State.ofLaunch p).pcAddr = p.entry := address_of_halves (entry_lt_of_wellFormed h)

end

section
variable (p : LaunchParams)

/-- A number modulo the address space, put in the container of an address. -/
theorem toNat_ofNat_mod_alen (n : Nat) : (BitVec.ofNat 64 (n % 2 ^ p.alen)).toNat = n % 2 ^ p.alen := by
  have hspace : 2 ^ p.alen ≤ 2 ^ 64 := Nat.pow_le_pow_right (by decide) (alen_bounds (State.ofLaunch p)).2
  rw [BitVec.toNat_ofNat]
  exact Nat.mod_eq_of_lt ((Nat.mod_lt n (Nat.two_pow_pos _)).trans_le hspace)

theorem toNat_launchNext : (launchNext p).toNat = (p.entry.toNat + 4) % 2 ^ p.alen := toNat_ofNat_mod_alen p _

theorem ofLaunch_npcAddr : (State.ofLaunch p).npcAddr = launchNext p :=
  address_of_halves ((toNat_launchNext p).trans_lt (Nat.mod_lt _ (Nat.two_pow_pos _)))

/-- `END_ADDR` defaults to the address just past the text (R6, log 20). -/
theorem toNat_endAddr_default (hn : p.endAddrGiven = none) :
    p.endAddr.toNat = (p.textBase.toNat + 4 * p.text.length) % 2 ^ p.alen := by
  rw [LaunchParams.endAddr, hn]
  exact toNat_ofNat_mod_alen p _

theorem endAddr_of_given {e : Addr} (hg : p.endAddrGiven = some e) : p.endAddr = e := by
  rw [LaunchParams.endAddr, hg, Option.getD_some]

end

/-- Settles O11: the addresses are the ones their stored halves make, and the launch lists every word at an aligned address
of its own, so that each reads back and no other word is held. -/
theorem launchStateIsAsTabulated : Obligations.LaunchStateIsAsTabulated := by
  intro p h
  have hnpc : (State.ofLaunch p).npcAddr.toNat = ((State.ofLaunch p).pcAddr.toNat + 4) % 2 ^ (State.ofLaunch p).alen := by
    rw [ofLaunch_npcAddr, ofLaunch_pcAddr h]
    exact toNat_launchNext p
  have hdata : ∀ d ∈ p.data, (State.ofLaunch p).memRead d.1 = some d.2 := fun d hd =>
    ofLaunch_memRead_of_mem h (List.mem_append_right _ hd)
  exact ⟨ofLaunch_pcAddr h, hnpc, rfl, rfl, rfl, fun _ => endAddr_of_given p, toNat_endAddr_default p, rfl, rfl,
    x_zero _, fun _ hr => if_neg hr, fun _ => ofLaunch_memRead_text h, hdata, fun _ => ofLaunch_memRead_none h⟩

end Sys2Proof.Machine
end

section
/-! PROOFS. The fetch (R26 steps 1 to 5) and the state at reset: what the step answers where the fetch stops and where
it yields an instruction (O6, O8, O10, O13). -/

namespace Sys2Proof.Machine

section
variable (s : State)

/-- The run is over, in the terms of R233. -/
theorem isOver_iff : s.isOver = true ↔ s.pcAddr = s.launch.endAddr ∧ s.ds = false := by
  simp [State.isOver, and_comm]

theorem isOver_eq_false_iff : s.isOver = false ↔ ¬(s.pcAddr = s.launch.endAddr ∧ s.ds = false) := by
  rw [← isOver_iff, Bool.not_eq_true]

theorem inText_iff (a : Addr) : s.inText a = true ↔
    s.launch.textBase.toNat ≤ a.toNat ∧ a.toNat < s.launch.textBase.toNat + 4 * s.launch.textLen := by
  simp [State.inText]

theorem wordAligned_eq_false_iff (a : Addr) : wordAligned a = false ↔ a.toNat % 4 ≠ 0 := by
  rw [← Bool.not_eq_true, wordAligned_iff]

theorem inText_eq_false_iff (a : Addr) : s.inText a = false ↔
    a.toNat < s.launch.textBase.toNat ∨ s.launch.textBase.toNat + 4 * s.launch.textLen ≤ a.toNat := by
  rw [← Bool.not_eq_true, inText_iff]
  omega

/-- R26 step 1. -/
theorem step_of_over (h : s.isOver = true) : step s = .fault .runOver := by
  simp [step, fetchInstr, h]

/-- R26 step 2. -/
theorem step_of_misaligned (ho : s.isOver = false) (ha : wordAligned s.pcAddr = false) :
    step s = .fault (.raised (.addressError .fetch s.pcAddr) s.pcAddr) := by
  simp [step, fetchInstr, ho, ha]

/-- R26 step 3. -/
theorem step_of_outsideText (ho : s.isOver = false) (ha : wordAligned s.pcAddr = true)
    (ht : s.inText s.pcAddr = false) : step s = .refused (.fetchOutsideText s.pcAddr) := by
  simp [step, fetchInstr, ho, ha, ht]

/-- R26 steps 5 to 8. -/
theorem step_of_fetchInstr_next {i : Instr} (h : fetchInstr s = .next i) : step s = exec i s := by
  simp [step, h]

end

/-- Where steps 1 to 4 of R26 pass, the fetch yields what the word decodes to. -/
theorem fetchInstr_of_fetches {s : State} {w : Word} {i : Instr} (h : Fetches s w) (hd : decodeWord w = .instr i) :
    fetchInstr s = .next i :=
  (fetchInstr_next s i).2 ⟨(isOver_eq_false_iff s).2 h.going, (wordAligned_iff _).2 h.align,
    (inText_iff s _).2 ⟨h.above, h.below⟩, w, h.held, hd⟩

/-- Settles O6. -/
theorem stepRunsTheDecodedInstruction : Obligations.StepRunsTheDecodedInstruction := fun s _ _ h hd =>
  step_of_fetchInstr_next s (fetchInstr_of_fetches h hd)

/-- Settles O8: one clause per check of the fetch, in the order of R26. -/
theorem fetchStopsInOrder : Obligations.FetchStopsInOrder := fun s =>
  ⟨fun ho => step_of_over s ((isOver_iff s).2 ho),
    fun ho ha => step_of_misaligned s ((isOver_eq_false_iff s).2 ho) ((wordAligned_eq_false_iff _).2 ha),
    fun ho ha ht =>
      step_of_outsideText s ((isOver_eq_false_iff s).2 ho) ((wordAligned_iff _).2 ha) ((inText_eq_false_iff s _).2 ht)⟩

/-! ### The state at reset -/

theorem reset_x64 (r : Reg) : State.reset.x64 r = 0 := by
  have hx : State.reset.x r = 0 := by simp [State.x, State.reset]
  have hhi : State.reset.hi r = 0 := by simp [State.hi, State.reset]
  rw [State.x64, hx, hhi]
  rfl

/-- Settles O10: every register is 0, and the empty text ends where it begins, at `pc`. -/
theorem resetStateIsAsLogged : Obligations.ResetStateIsAsLogged :=
  ⟨rfl, rfl, rfl, rfl, rfl, rfl, rfl, reset_x64, step_of_over _ rfl⟩

/-- Settles O13: no byte is listed and no word is text, so the clauses about them are empty. -/
theorem resetMeetsTheInvariant : Obligations.ResetMeetsTheInvariant where
  memory := wf_reset
  inSpace a ha := by cases ha
  wholeWords _ := rfl
  textFits := by decide
  textLoaded k hk := absurd hk (Nat.not_lt_zero k)
  endAligned := by decide
  pcFits := by decide
  nextFollows _ := by decide

end Sys2Proof.Machine
end

section
/-! PROOFS. Sequencing and the invariant: the addresses `pc` and `npc` after a completed instruction (R26 step 8, R27),
and what every step keeps (O14, O16, O17). -/

namespace Sys2Proof.Machine

/-! ### The next address after a completed instruction -/

/-- What `npc` can be after a completed instruction: the address after the old `npc`, or a target (R26 step 8). -/
theorem completion_npcAddr {i : Instr} {s t : State} (h : Completion i s t) :
    t.npcAddr = s.wrap (s.npcAddr + 4) ∨ (∃ offset, t.npcAddr = s.branchTarget offset) ∨
      (∃ target, t.npcAddr = s.jumpTarget target) ∨ ∃ rs, i = .jr rs ∧ t.npcAddr = s.registerTarget rs := by
  cases h with
  | register dst v d => simp
  | drawn dst => simp
  | store a v => simp
  | branch taken offset =>
    rw [transfer_npcAddr s taken _ (branchTarget_lt s offset)]
    cases taken
    · exact .inl rfl
    · exact .inr (.inl ⟨offset, rfl⟩)
  | jump target => exact .inr (.inr (.inl ⟨target, transfer_npcAddr s true _ (jumpTarget_lt s target)⟩))
  | link target =>
    have hlt : (s.jumpTarget target).toNat < 2 ^ s.setLink.alen := by simpa [setLink_eq] using jumpTarget_lt s target
    exact .inr (.inr (.inl ⟨target, transfer_npcAddr s.setLink true _ hlt⟩))
  | registerJump rs slot eq =>
    exact .inr (.inr (.inr ⟨rs, eq, transfer_npcAddr s true _ (registerTarget_lt s rs)⟩))

/-- `npc` is an address of the machine's width after any completed instruction (R25). -/
theorem completion_npcAddr_lt {i : Instr} {s t : State} (h : Completion i s t) : t.npcAddr.toNat < 2 ^ s.alen := by
  obtain h | ⟨offset, h⟩ | ⟨target, h⟩ | ⟨rs, -, h⟩ := completion_npcAddr h <;> rw [h]
  · exact wrap_lt s _
  · exact branchTarget_lt s offset
  · exact jumpTarget_lt s target
  · exact registerTarget_lt s rs

/-- R27, first invariant: outside a delay slot `npc` is `pc + 4`, in as many bits as an address has. -/
theorem completion_nextFollows {i : Instr} {s t : State} (h : Completion i s t) (hd : t.ds = false) :
    t.npcAddr.toNat = (t.pcAddr.toNat + 4) % 2 ^ t.alen := by
  obtain ⟨hpc, -, hlaunch, -, hnext⟩ := completion_sequencing h
  have halen : t.alen = s.alen := by simp [State.alen, hlaunch]
  rw [hnext hd, hpc, halen, toNat_wrap_add]
  rfl

/-- The 32-bit form of a sum of addresses of the normative mode. -/
theorem npc_eq_of_npcAddr {s : State} (hm : s.launch.mode64 = false)
    (h : s.npcAddr.toNat = (s.pcAddr.toNat + 4) % 2 ^ s.alen) : s.npc = s.pc + 4 := by
  apply BitVec.eq_of_toNat_eq
  simp only [State.npcAddr, State.pcAddr, hm, Bool.false_eq_true, if_false, toNat_wordAddress, alen_of_mode32 s hm] at h
  rw [h, BitVec.toNat_add]
  rfl

theorem ofLaunch_nextFollows (p : LaunchParams) :
    (State.ofLaunch p).npcAddr.toNat = ((State.ofLaunch p).pcAddr.toNat + 4) % 2 ^ (State.ofLaunch p).alen := by
  have halen : (State.ofLaunch p).alen = p.alen := rfl
  rw [ofLaunch_npcAddr, toNat_launchNext, halen]
  cases hm : p.mode64
  · have h32 : p.alen = 32 := by simp [LaunchParams.alen, addressBits, hm]
    have hpc : (State.ofLaunch p).pcAddr.toNat = p.entry.toNat % 2 ^ 32 := by
      simp [State.pcAddr, State.ofLaunch, hm, toNat_wordAddress]
    rw [hpc, h32]
    omega
  · have hpc : (State.ofLaunch p).pcAddr = p.entry := by
      simp only [State.pcAddr, State.ofLaunch, hm, if_true, halves_append]
    rw [hpc]

/-- Settles O16: every instruction that is no transfer leaves `npc` at the address after its successor's, and a launch
leaves it just past the entry. -/
theorem nextAddressFollowsOutsideSlots : Obligations.NextAddressFollowsOutsideSlots := by
  refine ⟨fun p hm => npc_eq_of_npcAddr hm (ofLaunch_nextFollows p), ofLaunch_nextFollows, fun s t h hd => ?_⟩
  obtain ⟨i, -, hexec⟩ := (step_next s t).1 h
  have hnext := completion_nextFollows (exec_completion hexec) hd
  exact ⟨fun hm => npc_eq_of_npcAddr hm hnext, hnext⟩

/-! ### Alignment of the targets (R149 (b)) -/

theorem wrap_add_four_aligned (s : State) {a : Addr} (h : a.toNat % 4 = 0) : (s.wrap (a + 4)).toNat % 4 = 0 := by
  have four : (4 : Addr).toNat = 4 := rfl
  rw [toNat_wrap_add, mod_alen_mod_four, four]
  omega

/-- The branch target in either mode (R35, R143). -/
theorem toNat_branchTarget (s : State) (offset : Imm16) :
    ((s.branchTarget offset).toNat : Int) = (s.pcAddr.toNat + 4 + 4 * offset.toInt) % 2 ^ s.alen := by
  cases hm : s.launch.mode64
  · have hpc : s.pcAddr.toNat = s.pc.toNat := by simp [State.pcAddr, hm, toNat_wordAddress]
    rw [branchTarget_of_mode32 s offset hm, alen_of_mode32 s hm, hpc]
  · exact branchTarget_of_mode64 s offset hm

theorem branchTarget_aligned (s : State) (offset : Imm16) (h : s.pcAddr.toNat % 4 = 0) :
    (s.branchTarget offset).toNat % 4 = 0 := by
  have hd : (4 : Int) ∣ 2 ^ s.alen := pow_dvd_pow 2 (show 2 ≤ s.alen by have := (alen_bounds s).1; omega)
  have hmod := congrArg (· % 4) (toNat_branchTarget s offset)
  simp only [Int.emod_emod_of_dvd _ hd] at hmod
  omega

theorem jumpTarget_aligned (s : State) (target : Target26) : (s.jumpTarget target).toNat % 4 = 0 := by
  cases hm : s.launch.mode64
  · rw [jumpTarget_of_mode32 s target hm]
    omega
  · have := jumpTarget_of_mode64 s target hm
    omega

/-- Settles O17: `pc` takes the aligned `npc`, and every target but JR's is aligned. -/
theorem onlyJrMisalignsTheProgramCounter : Obligations.OnlyJrMisalignsTheProgramCounter := by
  intro i s t hjr hpc hnpc hexec
  have hc := exec_completion hexec
  obtain ⟨hpc', -⟩ := completion_sequencing hc
  refine ⟨hpc' ▸ hnpc, ?_⟩
  obtain h | ⟨offset, h⟩ | ⟨target, h⟩ | ⟨rs, hi, -⟩ := completion_npcAddr hc
  · exact h ▸ wrap_add_four_aligned s hnpc
  · exact h ▸ branchTarget_aligned s offset hpc
  · exact h ▸ jumpTarget_aligned s target
  · exact absurd hi (hjr rs)

/-! ### The invariant -/

/-- No completed instruction changes the domain of the memory (R47). -/
theorem completion_domain {i : Instr} {s t : State} (h : Completion i s t) (a : Nat) :
    (Memory.readByte t.mem a).isSome = (Memory.readByte s.mem a).isSome := by
  obtain hmem | ⟨b, v, hmem, -, -, hheld⟩ := completion_memory h
  · rw [hmem]
  · rw [hmem, writeWord_domain _ _ _ _ hheld]

/-- Every completed instruction keeps the canonical form of the memory. -/
theorem completion_wf {i : Instr} {s t : State} (h : Completion i s t) (hw : Memory.wf s.mem) : Memory.wf t.mem := by
  obtain hmem | ⟨b, v, hmem, halign, -⟩ := completion_memory h
  · rwa [hmem]
  · rw [hmem]
    exact wf_writeWord _ _ _ _ hw halign

/-- Every completed instruction keeps the invariant: it keeps the launch parameters and the domain of the memory, on
which the launch's clauses rest, and sequences as R26 step 8 says. -/
theorem completion_keeps_inv {i : Instr} {s t : State} (h : Completion i s t) (hs : Inv s) : Inv t := by
  obtain ⟨hpc, -, hlaunch, -⟩ := completion_sequencing h
  have halen : t.alen = s.alen := by simp [State.alen, hlaunch]
  have hdom := completion_domain h
  exact
    { memory := completion_wf h hs.memory
      inSpace := fun a ha => halen ▸ hs.inSpace a (hdom a ▸ ha)
      wholeWords := fun a => by rw [hdom, hdom, hs.wholeWords a]
      textFits := by rw [hlaunch, halen]; exact hs.textFits
      textLoaded := fun k hk => by
        rw [hlaunch] at hk ⊢
        rw [hdom]
        exact hs.textLoaded k hk
      endAligned := by rw [hlaunch, halen]; exact hs.endAligned
      pcFits := ⟨by rw [hpc, halen]; exact hs.pcFits.2, halen ▸ completion_npcAddr_lt h⟩
      nextFollows := completion_nextFollows h }

/-- Settles O14: a step is the completion of the instruction it fetches, and every completion keeps the invariant. -/
theorem stepKeepsTheInvariant : Obligations.StepKeepsTheInvariant := by
  intro s t hs h
  obtain ⟨i, -, hexec⟩ := (step_next s t).1 h
  exact completion_keeps_inv (exec_completion hexec) hs

end Sys2Proof.Machine
end

section
/-! PROOFS. The register columns of R38: which registers an instruction writes, and that what the others hold plays no
part (O43, O44). -/

namespace Sys2Proof.Machine

/-! ### The W column -/

/-- A completed instruction leaves every register outside its `W` column as it was. -/
theorem completion_x64_ne {i : Instr} {s t : State} (h : Completion i s t) {r : Reg} (hr : r ∉ i.writes) :
    t.x64 r = s.x64 r := by
  cases h with
  | register dst v d plain writes =>
    rw [writes, List.mem_singleton] at hr
    rw [x64_advance, x64_setFull_ne s dst r v d hr]
  | drawn dst mode plain writes =>
    rw [writes, List.mem_singleton] at hr
    rw [x64_advance, x64_drawInto_ne s dst r hr]
  | link target slot eq =>
    subst eq
    rw [x64_transfer, setLink_eq, x64_setFull_ne s 31 r _ _ (List.mem_singleton.not.1 hr)]
  | store a v => simp
  | branch taken offset => simp
  | jump target => simp
  | registerJump rs => simp

/-- Settles O43. -/
theorem onlyTheDestinationChanges : Obligations.OnlyTheDestinationChanges := fun _ _ t h =>
  ⟨fun _ => completion_x64_ne (exec_completion h), x64_zero t⟩

/-! ### The R column -/

/-- Put a value in register `q` after an instruction, unless the instruction has written the register. -/
def setUnlessWritten (written : List Reg) (q : Reg) (v : Word) (d : DWord) (t : State) : State :=
  if q ∈ written then t else t.setFull q v d

section
variable (s : State) (q : Reg) (v : Word) (d : DWord) (dst : Reg) (w : Word) (e : DWord) (written : List Reg)

theorem setUnlessWritten_nil : setUnlessWritten [] q v d s = s.setFull q v d := if_neg List.not_mem_nil

theorem setUnlessWritten_ds : (setUnlessWritten written q v d s).ds = s.ds := by
  unfold setUnlessWritten
  split <;> simp

theorem setUnlessWritten_pcAddr : (setUnlessWritten written q v d s).pcAddr = s.pcAddr := by
  unfold setUnlessWritten
  split <;> simp

theorem setUnlessWritten_advance :
    (setUnlessWritten written q v d s).advance = setUnlessWritten written q v d s.advance := by
  unfold setUnlessWritten
  split
  · rfl
  · exact setFull_advance s q v d

theorem setUnlessWritten_transfer (taken : Bool) (a : Addr) :
    (setUnlessWritten written q v d s).transfer taken a = setUnlessWritten written q v d (s.transfer taken a) := by
  unfold setUnlessWritten
  split
  · rfl
  · exact setFull_transfer s q v d taken a

/-- A register result replaces the value put in its destination before. -/
theorem setFull_setFull :
    (s.setFull q v d).setFull dst w e = setUnlessWritten [dst] q v d (s.setFull dst w e) := by
  by_cases h : q = dst
  · subst h
    simp [setUnlessWritten, setFull_setFull_self]
  · simp [setUnlessWritten, h, setFull_setFull_comm s q dst v d w e (Ne.symm h)]

/-- The counter of free values plays no part in a register write. -/
theorem setFull_withDraws (n : Nat) : { s with draws := n }.setFull q v d = { s.setFull q v d with draws := n } := by
  unfold State.setFull State.setX64 State.setX State.setHi
  split <;> split <;> rfl

/-- In MODE64 a free value is a register result that also counts the draw. -/
theorem drawInto_of_mode64 (h : s.launch.mode64 = true) :
    s.drawInto dst = { s.setFull dst 0 (Config.anyValue64 s.draws) with draws := s.draws + 1 } := by
  rw [State.drawInto, setFull_of_mode64 s dst _ _ h]

theorem setFull_drawInto (h : s.launch.mode64 = true) :
    (s.setFull q v d).drawInto dst = setUnlessWritten [dst] q v d (s.drawInto dst) := by
  rw [drawInto_of_mode64 _ dst (by simpa using h), drawInto_of_mode64 s dst h, setFull_setFull, setFull_draws]
  unfold setUnlessWritten
  split
  · rfl
  · exact (setFull_withDraws ..).symm

/-! Each shared operation with another value in a register it does not read. -/

theorem finishFull_setFull : finishFull (s.setFull q v d) dst w e =
    mapNext (setUnlessWritten [dst] q v d) (finishFull s dst w e) := by
  simp only [finishFull, mapNext, setFull_setFull, setUnlessWritten_advance]

theorem finishWord_setFull : finishWord (s.setFull q v d) dst w =
    mapNext (setUnlessWritten [dst] q v d) (finishWord s dst w) := finishFull_setFull ..

theorem addChecked_setFull (a b : Word) : addChecked (s.setFull q v d) dst a b =
    mapNext (setUnlessWritten [dst] q v d) (addChecked s dst a b) := by
  unfold addChecked
  split
  · simp [raiseException, mapNext]
  · exact finishWord_setFull ..

theorem operandsValid_setFull {sources : List Reg} (hq : q ∉ sources) :
    (s.setFull q v d).operandsValid sources = s.operandsValid sources := by
  have hx (r : Reg) (hr : r ∈ sources) : (s.setFull q v d).x64 r = s.x64 r :=
    x64_setFull_ne s q r v d fun h => hq (h ▸ hr)
  rw [Bool.eq_iff_iff]
  simp only [State.operandsValid, setFull_launch, Bool.or_eq_true, List.all_eq_true]
  exact or_congr_right (forall₂_congr fun r hr => by rw [hx r hr])

theorem wordOperation_setFull {sources : List Reg} (hq : q ∉ sources) (run : StepResult) :
    wordOperation (s.setFull q v d) dst sources (mapNext (setUnlessWritten [dst] q v d) run) =
      mapNext (setUnlessWritten [dst] q v d) (wordOperation s dst sources run) := by
  have hvalid := operandsValid_setFull s q v d hq
  cases h : s.operandsValid sources
  · have hm : s.launch.mode64 = true := by
      by_contra hm
      simp [operandsValid_of_mode32 s sources (Bool.not_eq_true _ ▸ hm)] at h
    rw [wordOperation_of_invalid _ _ _ _ h, wordOperation_of_invalid _ _ _ _ (hvalid.trans h),
      setFull_drawInto s q v d dst hm, setUnlessWritten_advance]
    rfl
  · rw [wordOperation_of_valid _ _ _ _ h, wordOperation_of_valid _ _ _ _ (hvalid.trans h)]

theorem controlTransfer_setUnlessWritten (taken : Bool) (a : Addr) :
    controlTransfer (setUnlessWritten written q v d s) taken a =
      mapNext (setUnlessWritten written q v d) (controlTransfer s taken a) := by
  unfold controlTransfer
  rw [setUnlessWritten_ds, setUnlessWritten_pcAddr, setUnlessWritten_transfer]
  split <;> rfl

theorem controlTransfer_setFull (taken : Bool) (a : Addr) : controlTransfer (s.setFull q v d) taken a =
    mapNext (setUnlessWritten [] q v d) (controlTransfer s taken a) := by
  rw [← setUnlessWritten_nil, controlTransfer_setUnlessWritten]

theorem aligned_setFull (kind : AccessKind) (a : Addr) (access : StepResult) (f : State → State) :
    aligned (s.setFull q v d) kind a (mapNext f access) = mapNext f (aligned s kind a access) := by
  unfold aligned
  split
  · rfl
  · simp [raiseException, mapNext]

theorem loadWord_setFull (a : Addr) (use : Word → StepResult) (f : State → State) :
    loadWord (s.setFull q v d) a (fun w => mapNext f (use w)) = mapNext f (loadWord s a use) := by
  have hread : (s.setFull q v d).memRead a = s.memRead a := by simp [State.memRead]
  unfold loadWord
  rw [hread]
  cases s.memRead a <;> rfl

theorem storeWord_setFull (a : Addr) : storeWord (s.setFull q v d) a w =
    mapNext (setUnlessWritten [] q v d) (storeWord s a w) := by
  have hread : (s.setFull q v d).memRead a = s.memRead a := by simp [State.memRead]
  have htext : (s.setFull q v d).inText a = s.inText a := by simp [State.inText]
  unfold storeWord
  rw [hread, htext]
  split
  · rfl
  · split
    · simp [mapNext, setUnlessWritten_nil, setFull_putWord, setFull_advance]
    · rfl

/-! Each operand form with another value in a register it does not read. -/

theorem branchTarget_setFull (offset : Imm16) : (s.setFull q v d).branchTarget offset = s.branchTarget offset := by
  simp [State.branchTarget]

theorem jumpTarget_setFull (target : Target26) : (s.setFull q v d).jumpTarget target = s.jumpTarget target := by
  simp [State.jumpTarget]

theorem linkValue64_setFull : (s.setFull q v d).linkValue64 = s.linkValue64 := by
  simp [State.linkValue64]

theorem setLink_setFull : (s.setFull q v d).setLink = setUnlessWritten [31] q v d s.setLink := by
  simp only [setLink_eq, setFull_pc, linkValue64_setFull, setFull_setFull]

variable {r r' : Reg}

theorem registersEqual_setFull (h : r ≠ q) (h' : r' ≠ q) :
    (s.setFull q v d).registersEqual r r' = s.registersEqual r r' := by
  simp [State.registersEqual, x_setFull_ne, x64_setFull_ne, h, h']

theorem registerTarget_setFull (h : r ≠ q) : (s.setFull q v d).registerTarget r = s.registerTarget r := by
  simp [State.registerTarget, x_setFull_ne, x64_setFull_ne, h]

theorem effectiveAddress_setFull (h : r ≠ q) (offset : Imm16) :
    (s.setFull q v d).effectiveAddress r offset = s.effectiveAddress r offset := by
  simp [State.effectiveAddress, x_setFull_ne, x64_setFull_ne, h]

theorem storedWord_setFull (h : r ≠ q) : (s.setFull q v d).storedWord r = s.storedWord r := by
  simp [State.storedWord, x_setFull_ne, x64_setFull_ne, h]

end

/-- Another value in a register that an instruction does not read stands after it too, unless the instruction writes the
register, and changes nothing else. -/
theorem exec_setFull (s : State) {i : Instr} {q : Reg} (v : Word) (d : DWord) (hq : q ∉ i.reads) :
    exec i (s.setFull q v d) = mapNext (setUnlessWritten i.writes q v d) (exec i s) := by
  have hne : ∀ r ∈ i.reads, r ≠ q := fun r hr h => hq (h ▸ hr)
  have hx (r : Reg) (h : r ≠ q) : (s.setFull q v d).x r = s.x r := x_setFull_ne s q r v d h
  have hx64 (r : Reg) (h : r ≠ q) : (s.setFull q v d).x64 r = s.x64 r := x64_setFull_ne s q r v d h
  cases i with
  | add rd rs rt =>
    obtain ⟨hs, ht⟩ : rs ≠ q ∧ rt ≠ q := by simpa [Instr.reads] using hne
    simp only [exec, execAdd, hx _ hs, hx _ ht, addChecked_setFull]
    exact wordOperation_setFull s q v d rd hq _
  | addu rd rs rt =>
    obtain ⟨hs, ht⟩ : rs ≠ q ∧ rt ≠ q := by simpa [Instr.reads] using hne
    simp only [exec, execAddu, hx _ hs, hx _ ht, finishWord_setFull]
    exact wordOperation_setFull s q v d rd hq _
  | subu rd rs rt =>
    obtain ⟨hs, ht⟩ : rs ≠ q ∧ rt ≠ q := by simpa [Instr.reads] using hne
    simp only [exec, execSubu, hx _ hs, hx _ ht, finishWord_setFull]
    exact wordOperation_setFull s q v d rd hq _
  | and rd rs rt =>
    obtain ⟨hs, ht⟩ : rs ≠ q ∧ rt ≠ q := by simpa [Instr.reads] using hne
    simp only [exec, execAnd, hx _ hs, hx _ ht, hx64 _ hs, hx64 _ ht, finishFull_setFull, Instr.writes]
  | or rd rs rt =>
    obtain ⟨hs, ht⟩ : rs ≠ q ∧ rt ≠ q := by simpa [Instr.reads] using hne
    simp only [exec, execOr, hx _ hs, hx _ ht, hx64 _ hs, hx64 _ ht, finishFull_setFull, Instr.writes]
  | nor rd rs rt =>
    obtain ⟨hs, ht⟩ : rs ≠ q ∧ rt ≠ q := by simpa [Instr.reads] using hne
    simp only [exec, execNor, hx _ hs, hx _ ht, hx64 _ hs, hx64 _ ht, finishFull_setFull, Instr.writes]
  | sltu rd rs rt =>
    obtain ⟨hs, ht⟩ : rs ≠ q ∧ rt ≠ q := by simpa [Instr.reads] using hne
    simp only [exec, execSltu, hx _ hs, hx _ ht, hx64 _ hs, hx64 _ ht, finishFull_setFull, Instr.writes]
  | addi rt rs imm =>
    have hs : rs ≠ q := by simpa [Instr.reads] using hne
    simp only [exec, execAddi, hx _ hs, addChecked_setFull]
    exact wordOperation_setFull s q v d rt hq _
  | addiu rt rs imm =>
    have hs : rs ≠ q := by simpa [Instr.reads] using hne
    simp only [exec, execAddiu, hx _ hs, finishWord_setFull]
    exact wordOperation_setFull s q v d rt hq _
  | srl rd rt sa =>
    have ht : rt ≠ q := by simpa [Instr.reads] using hne
    simp only [exec, execSrl, hx _ ht, finishWord_setFull]
    exact wordOperation_setFull s q v d rd hq _
  | sll rd rt sa =>
    have ht : rt ≠ q := by simpa [Instr.reads] using hne
    simp only [exec, execSll, hx _ ht, finishWord_setFull, Instr.writes]
  | andi rt rs imm =>
    have hs : rs ≠ q := by simpa [Instr.reads] using hne
    simp only [exec, execAndi, hx _ hs, hx64 _ hs, finishFull_setFull, Instr.writes]
  | ori rt rs imm =>
    have hs : rs ≠ q := by simpa [Instr.reads] using hne
    simp only [exec, execOri, hx _ hs, hx64 _ hs, finishFull_setFull, Instr.writes]
  | lui rt imm => exact finishWord_setFull ..
  | lw rt offset base =>
    have hb : base ≠ q := by simpa [Instr.reads] using hne
    simp only [exec, execLw, effectiveAddress_setFull s q v d hb, finishWord_setFull, loadWord_setFull,
      aligned_setFull, Instr.writes]
  | sw rt offset base =>
    obtain ⟨hb, ht⟩ : base ≠ q ∧ rt ≠ q := by simpa [Instr.reads] using hne
    simp only [exec, execSw, effectiveAddress_setFull s q v d hb, storedWord_setFull s q v d ht, storeWord_setFull,
      aligned_setFull, Instr.writes]
  | beq rs rt offset =>
    obtain ⟨hs, ht⟩ : rs ≠ q ∧ rt ≠ q := by simpa [Instr.reads] using hne
    simp only [exec, execBeq, registersEqual_setFull s q v d hs ht, branchTarget_setFull, controlTransfer_setFull,
      Instr.writes]
  | bne rs rt offset =>
    obtain ⟨hs, ht⟩ : rs ≠ q ∧ rt ≠ q := by simpa [Instr.reads] using hne
    simp only [exec, execBne, registersEqual_setFull s q v d hs ht, branchTarget_setFull, controlTransfer_setFull,
      Instr.writes]
  | j target => simp only [exec, execJ, jumpTarget_setFull, controlTransfer_setFull, Instr.writes]
  | jal target =>
    simp only [exec, execJal, jumpTarget_setFull, setLink_setFull, Instr.writes]
    exact controlTransfer_setUnlessWritten ..
  | jr rs =>
    have hs : rs ≠ q := by simpa [Instr.reads] using hne
    simp only [exec, execJr, registerTarget_setFull s q v d hs, controlTransfer_setFull, Instr.writes]

/-- Settles O44. -/
theorem unreadRegistersPlayNoPart : Obligations.UnreadRegistersPlayNoPart := fun _ s _ v d hq =>
  exec_setFull s v d hq

end Sys2Proof.Machine
end

section
/-! PROOFS. What a completed instruction leaves, in the terms of the statements: the sequencing, in either mode, and the
frames of a register result, a transfer and a store; and the words that the statements write as numbers. -/

namespace Sys2Proof.Machine

/-! ### Sequencing in either mode -/

section
variable (s : State) {u : State}

/-- The sequencing after updates that leave the launch parameters and `pc` and `npc` as they were. -/
theorem advances_of_kept (hl : u.launch = s.launch) (hn : u.npcAddr = s.npcAddr) (hpc : u.pcHi = s.pcHi)
    (hnpc : u.npcHi = s.npcHi) : Advances s u.advance where
  pc := (advance_pcAddr u).trans hn
  npc := by
    rw [advance_npcAddr, toNat_wrap_add, hn, State.alen, hl]
    rfl
  ds := advance_ds u
  upper hm := by simp [State.advance, State.sequence, hl, hm, hpc, hnpc]

/-- The same of a control transfer, to a target that is an address. -/
theorem transfers_of_kept (hl : u.launch = s.launch) (hn : u.npcAddr = s.npcAddr) (hpc : u.pcHi = s.pcHi)
    (hnpc : u.npcHi = s.npcHi) {taken : Bool} {p : Prop} (hp : taken = true ↔ p) {a : Addr}
    (ha : a.toNat < 2 ^ s.alen) : Transfers s (u.transfer taken a) p a.toNat := by
  have halen : u.alen = s.alen := by simp [State.alen, hl]
  have hnext := transfer_npcAddr u taken a (halen ▸ ha)
  exact
    { pc := (transfer_pcAddr u taken a).trans hn
      npcTaken := fun h => by rw [hnext, if_pos (hp.2 h)]
      npcNotTaken := fun h => by
        rw [hnext, if_neg (hp.not.2 h), toNat_wrap_add, hn, halen]
        rfl
      ds := transfer_ds u taken a
      upper := fun hm => by simp [State.transfer, State.sequence, hl, hm, hpc, hnpc] }

variable (r : Reg) (v : Word) (d : DWord) (a : Addr)

theorem setFull_advances : Advances s (s.setFull r v d).advance :=
  advances_of_kept s (setFull_launch ..) (setFull_npcAddr ..) (setFull_pcHi ..) (setFull_npcHi ..)

theorem drawInto_advances : Advances s (s.drawInto r).advance :=
  advances_of_kept s (drawInto_launch ..) (drawInto_npcAddr ..) (drawInto_pcHi ..) (drawInto_npcHi ..)

theorem putWord_advances : Advances s (s.putWord a v).advance := advances_of_kept s rfl rfl rfl rfl

theorem transfer_transfers {taken : Bool} {p : Prop} (hp : taken = true ↔ p) (ha : a.toNat < 2 ^ s.alen) :
    Transfers s (s.transfer taken a) p a.toNat := transfers_of_kept s rfl rfl rfl rfl hp ha

/-! ### Frames -/

theorem transfer_keepsRegisters (taken : Bool) : KeepsRegisters s (s.transfer taken a) := fun r =>
  x64_transfer s r taken a

theorem transfer_keepsRest (taken : Bool) : KeepsRest s (s.transfer taken a) where
  memory _ := by rw [transfer_mem]
  launch := transfer_launch s taken a
  draws := transfer_draws s taken a

theorem setFull_keepsRest : KeepsRest s (s.setFull r v d).advance where
  memory _ := by rw [advance_mem, setFull_mem]
  launch := by rw [advance_launch, setFull_launch]
  draws := by rw [advance_draws, setFull_draws]

/-- SW replaces one word and nothing else. -/
theorem putWord_storesWord : StoresWord s (s.putWord a v).advance a v where
  stored := by simp [State.memRead]
  outside b hb := by rw [advance_mem, putWord_mem, readByte_writeWord_ne _ _ _ _ hb]
  registers _ := by rw [x64_advance, x64_putWord]
  launch := by rw [advance_launch, putWord_launch]
  draws := by rw [advance_draws, putWord_draws]

end

/-! ### The words that the statements write as numbers -/

theorem toInt_signedImm (imm : Imm16) : (signedImm imm).toInt = imm.toInt :=
  BitVec.toInt_signExtend_of_le (by decide)

theorem add_eq_ofInt (a b : Word) : a + b = BitVec.ofInt 32 (a.toInt + b.toInt) := by
  rw [BitVec.ofInt_add, BitVec.ofInt_toInt, BitVec.ofInt_toInt]

theorem add_eq_ofNat (a b : Word) : a + b = BitVec.ofNat 32 (a.toNat + b.toNat) := by
  rw [BitVec.ofNat_add, BitVec.ofNat_toNat, BitVec.ofNat_toNat, BitVec.setWidth_eq, BitVec.setWidth_eq]

theorem sub_eq_ofInt (a b : Word) : a - b = BitVec.ofInt 32 (a.toNat - b.toNat) := by
  rw [Int.sub_eq_add_neg, BitVec.ofInt_add, BitVec.ofInt_neg, BitVec.ofInt_natCast, BitVec.ofInt_natCast,
    BitVec.ofNat_toNat, BitVec.ofNat_toNat, BitVec.setWidth_eq, BitVec.setWidth_eq, BitVec.sub_eq_add_neg]

theorem shiftRight_eq_ofNat (a : Word) (n : Nat) : a >>> n = BitVec.ofNat 32 (a.toNat / 2 ^ n) := by
  rw [← Nat.shiftRight_eq_div_pow, ← BitVec.toNat_ushiftRight, BitVec.ofNat_toNat, BitVec.setWidth_eq]

theorem shiftLeft_eq_ofNat (a : Word) (n : Nat) : a <<< n = BitVec.ofNat 32 (a.toNat * 2 ^ n) := by
  apply BitVec.eq_of_toNat_eq
  rw [BitVec.toNat_shiftLeft, Nat.shiftLeft_eq, BitVec.toNat_ofNat]

theorem toInt_upperImm (imm : Imm16) : (upperImm imm).toInt = imm.toInt * 2 ^ 16 :=
  BitVec.toInt_append_zero.trans (Int.mul_comm ..)

/-- The low half of a 64-bit register. -/
theorem x64_mod (s : State) (r : Reg) : (s.x64 r).toNat % 2 ^ 32 = (s.x r).toNat := by
  have h : (s.x64 r).toNat = (s.hi r).toNat * 2 ^ 32 + (s.x r).toNat := Laws.toNat_concat (s.hi r) (s.x r)
  have := (s.x r).isLt
  omega

/-- R100: the overflow test is that the signed sum is not representable. -/
theorem addOverflows_eq_false_iff (a b : Word) :
    addOverflows a b = false ↔ -2 ^ 31 ≤ a.toInt + b.toInt ∧ a.toInt + b.toInt < 2 ^ 31 := by
  have ha := a.isLt
  have hb := b.isLt
  rw [addOverflows, carry30, carry31, Nat.testBit_eq_decide_div_mod_eq, Nat.testBit_eq_decide_div_mod_eq,
    bne_eq_false_iff_eq, decide_eq_decide, BitVec.toInt_eq_toNat_cond, BitVec.toInt_eq_toNat_cond]
  split_ifs <;> omega

end Sys2Proof.Machine
end

section
/-! PROOFS. The MODE64 annex R33 to R36: the results of the instructions as the statements write them (O48 to O54). -/

namespace Sys2Proof.Machine

/-! ### Results in MODE64 -/

section
variable {s : State} (r : Reg) (v : Word) (d : DWord) (hm : s.launch.mode64 = true)
include hm

theorem setFull_writesDWord : WritesDWord s (s.setFull r v d).advance r d where
  value := by rw [x64_advance, setFull_of_mode64 s r v d hm, x64_setX64_self]
  others q hq := by rw [x64_advance, x64_setFull_ne s r q v d hq]
  rest := setFull_keepsRest s r v d

theorem finishFull_of_mode64 :
    ∃ t, finishFull s r v d = .next t ∧ Advances s t ∧ WritesDWord s t r d :=
  ⟨_, rfl, setFull_advances s r v d, setFull_writesDWord r v d hm⟩

/-- A word result is written sign-extended. -/
theorem finishWord_of_mode64 :
    ∃ t, finishWord s r v = .next t ∧ Advances s t ∧ WritesDWord s t r (BitVec.ofInt 64 v.toInt) :=
  finishFull_of_mode64 r v (v.signExtend 64) hm

theorem operandsValid_of_mode64 (sources : List Reg) :
    s.operandsValid sources = sources.all fun r => validWord (s.x64 r) := by
  simp [State.operandsValid, hm]

end

/-! ### Word operations (R35, R36) -/

section
variable {s : State} {sources : List Reg} (r : Reg)

/-- On valid operands a checked sum that is not representable in 32 bits raises `Overflow`. -/
theorem wordOperation_addChecked_overflow (hv : s.operandsValid sources = true) {a b : Word} {n : Int}
    (hn : a.toInt + b.toInt = n) (h : ¬(-2 ^ 31 ≤ n ∧ n < 2 ^ 31)) :
    wordOperation s r sources (addChecked s r a b) = .fault (.raised .overflow s.pcAddr) := by
  have hover : addOverflows a b = true := by
    rw [← Bool.not_eq_false, addOverflows_eq_false_iff, hn]
    exact h
  rw [wordOperation_of_valid s r sources _ hv, addChecked, if_pos hover, raiseException]

/-- On an invalid operand the next free value is written, and nothing else but the count of draws and the sequencing
changes. -/
theorem wordOperation_drawn (hv : s.operandsValid sources = false) (run : StepResult) :
    ∃ t, wordOperation s r sources run = .next t ∧ Advances s t ∧
      t.x64 r = (if r = 0 then 0 else Config.anyValue64 s.draws) ∧ (∀ q, q ≠ r → t.x64 q = s.x64 q) ∧
      (∀ c, Memory.readByte t.mem c = Memory.readByte s.mem c) ∧ t.launch = s.launch ∧ t.draws = s.draws + 1 :=
  ⟨_, wordOperation_of_invalid s r sources run hv, drawInto_advances s r,
    (x64_advance _ r).trans (x64_drawInto_self s r),
    fun q hq => (x64_advance _ q).trans (x64_drawInto_ne s r q hq),
    fun _ => by rw [advance_mem, drawInto_mem], by rw [advance_launch, drawInto_launch],
    by rw [advance_draws, drawInto_draws]⟩

variable (hm : s.launch.mode64 = true)
include hm

/-- On valid operands a word operation writes its 32-bit result sign-extended. -/
theorem wordOperation_finishWord_of_mode64 (hv : s.operandsValid sources = true) {v w : Word} (h : v = w) :
    ∃ t, wordOperation s r sources (finishWord s r v) = .next t ∧ Advances s t ∧
      WritesDWord s t r (BitVec.ofInt 64 w.toInt) := by
  rw [wordOperation_of_valid s r sources _ hv, h]
  exact finishWord_of_mode64 r w hm

/-- On valid operands a checked sum is written sign-extended if it is representable in 32 bits. -/
theorem wordOperation_addChecked_of_mode64 (hv : s.operandsValid sources = true) {a b : Word} {n : Int}
    (hn : a.toInt + b.toInt = n) (h : -2 ^ 31 ≤ n ∧ n < 2 ^ 31) :
    ∃ t, wordOperation s r sources (addChecked s r a b) = .next t ∧ Advances s t ∧
      WritesDWord s t r (BitVec.ofInt 64 n) := by
  have hfits : addOverflows a b = false := (addOverflows_eq_false_iff a b).2 (hn ▸ h)
  have hsum : (a + b).toInt = n := by
    rw [add_eq_ofInt, hn, BitVec.toInt_ofInt_eq_self (by decide) h.1 h.2]
  rw [wordOperation_of_valid s r sources _ hv, addChecked, hfits, ← hsum]
  exact finishWord_of_mode64 r (a + b) hm

theorem operandsValid_singleton_of_mode64 (a : Reg) : s.operandsValid [a] = validWord (s.x64 a) := by
  simp [operandsValid_of_mode64 hm]

theorem operandsValid_pair_of_mode64 (a b : Reg) :
    s.operandsValid [a, b] = (validWord (s.x64 a) && validWord (s.x64 b)) := by
  simp [operandsValid_of_mode64 hm]

end

/-- Settles O48. -/
theorem mode64WordResults : Obligations.Mode64WordResults := by
  intro d a b imm sa s hm ha
  have hone := (operandsValid_singleton_of_mode64 hm a).trans ha
  refine ⟨wordOperation_finishWord_of_mode64 d hm hone ?_,
    wordOperation_finishWord_of_mode64 d hm hone (shiftRight_eq_ofNat _ _), fun hb => ?_⟩
  · rw [add_eq_ofInt, toInt_signedImm]
  · have htwo : s.operandsValid [a, b] = true := by rw [operandsValid_pair_of_mode64 hm, ha, hb]; rfl
    exact ⟨wordOperation_finishWord_of_mode64 d hm htwo (add_eq_ofNat _ _),
      wordOperation_finishWord_of_mode64 d hm htwo (sub_eq_ofInt _ _)⟩

/-- Settles O49. -/
theorem mode64CheckedSums : Obligations.Mode64CheckedSums := by
  intro d a b imm s hm ha
  have hone := (operandsValid_singleton_of_mode64 hm a).trans ha
  have himm : (s.x a).toInt + (signedImm imm).toInt = (s.x a).toInt + imm.toInt := by rw [toInt_signedImm]
  refine ⟨wordOperation_addChecked_of_mode64 d hm hone himm, wordOperation_addChecked_overflow d hone himm,
    fun hb => ?_⟩
  have htwo : s.operandsValid [a, b] = true := by rw [operandsValid_pair_of_mode64 hm, ha, hb]; rfl
  exact ⟨wordOperation_addChecked_of_mode64 d hm htwo rfl, wordOperation_addChecked_overflow d htwo rfl⟩

/-- Settles O50: the six instructions are the word operations, whatever each would compute. -/
theorem mode64InvalidOperands : Obligations.Mode64InvalidOperands := by
  intro d a b imm sa i s hm h
  obtain ⟨ha, hi⟩ | ⟨hab, hi⟩ := h
  · have hone := (operandsValid_singleton_of_mode64 hm a).trans ha
    obtain rfl | rfl | rfl := hi <;> exact wordOperation_drawn d hone _
  · have htwo : s.operandsValid [a, b] = false := by
      rw [operandsValid_pair_of_mode64 hm, Bool.and_eq_false_iff]
      exact hab
    obtain rfl | rfl | rfl := hi <;> exact wordOperation_drawn d htwo _

/-! ### Words and whole registers (R35) -/

/-- Settles O51. -/
theorem mode64SignExtendedResults : Obligations.Mode64SignExtendedResults := by
  intro d a imm sa s hm
  refine ⟨?_, ?_, effectiveAddress_of_mode64 s imm a hm, fun halign w hw => ?_⟩
  · rw [← toInt_upperImm]
    exact finishWord_of_mode64 d (upperImm imm) hm
  · rw [x64_mod, ← shiftLeft_eq_ofNat]
    exact finishWord_of_mode64 d (s.x a <<< sa.toNat) hm
  · have hload : exec (.lw d imm a) s = finishWord s d w := by
      simp [exec, execLw, aligned, loadWord, (wordAligned_iff _).2 halign, hw]
    rw [hload]
    exact finishWord_of_mode64 d w hm

theorem zeroImm64_eq_ofNat (imm : Imm16) : zeroImm64 imm = BitVec.ofNat 64 imm.toNat :=
  (BitVec.ofNat_toNat 64 imm).symm

theorem lessUnsigned_of_lt {n : Nat} {a b : BitVec n} (h : a.toNat < b.toNat) : lessUnsigned n a b = 1 := if_pos h

theorem lessUnsigned_of_le {n : Nat} {a b : BitVec n} (h : b.toNat ≤ a.toNat) : lessUnsigned n a b = 0 :=
  if_neg h.not_gt

/-- Settles O52. -/
theorem mode64WholeRegisterResults : Obligations.Mode64WholeRegisterResults := by
  intro d a b imm s hm
  refine ⟨finishFull_of_mode64 d _ _ hm, finishFull_of_mode64 d _ _ hm, finishFull_of_mode64 d _ _ hm, ?_, ?_, ?_⟩
  · rw [← zeroImm64_eq_ofNat]
    exact finishFull_of_mode64 d _ _ hm
  · rw [← zeroImm64_eq_ofNat]
    exact finishFull_of_mode64 d _ _ hm
  · obtain ⟨t, ht, hadv, hwrites⟩ := finishFull_of_mode64 (s := s) d (lessUnsigned 32 (s.x a) (s.x b))
      (lessUnsigned 64 (s.x64 a) (s.x64 b)) hm
    exact ⟨t, ht, hadv, fun h => lessUnsigned_of_lt h ▸ hwrites, fun h => lessUnsigned_of_le h ▸ hwrites⟩

/-! ### Control transfers and the store (R35) -/

section
variable {s : State} (hd : s.ds = false)
include hd

/-- Outside a delay slot a control transfer completes; it changes `pc`, `npc` and `ds` only. -/
theorem controlTransfer_completes {taken : Bool} {p : Prop} (hp : taken = true ↔ p) {a : Addr}
    (ha : a.toNat < 2 ^ s.alen) {g : Nat} (hg : a.toNat = g) :
    ∃ t, controlTransfer s taken a = .next t ∧ KeepsRegisters s t ∧ KeepsRest s t ∧ Transfers s t p g :=
  ⟨_, (controlTransfer_next ..).2 ⟨hd, rfl⟩, transfer_keepsRegisters s a taken, transfer_keepsRest s a taken,
    hg ▸ transfer_transfers s a hp ha⟩

theorem execJal_next (target : Target26) :
    exec (.jal target) s = .next (s.setLink.transfer true (s.jumpTarget target)) :=
  (controlTransfer_next ..).2 ⟨(setFull_ds ..).trans hd, rfl⟩

end

theorem registersEqual_of_mode64 {s : State} (hm : s.launch.mode64 = true) (rs rt : Reg) :
    s.registersEqual rs rt = true ↔ s.x64 rs = s.x64 rt := by
  simp [State.registersEqual, hm]

/-- JAL's write of the link register leaves everything but that register. -/
theorem setLink_transfer_keepsRest (s : State) (taken : Bool) (a : Addr) :
    KeepsRest s (s.setLink.transfer taken a) where
  memory _ := by rw [transfer_mem, setLink_eq, setFull_mem]
  launch := by rw [transfer_launch, setLink_eq, setFull_launch]
  draws := by rw [transfer_draws, setLink_eq, setFull_draws]

theorem setLink_transfer_transfers (s : State) {a : Addr} (ha : a.toNat < 2 ^ s.alen) :
    Transfers s (s.setLink.transfer true a) True a.toNat :=
  transfers_of_kept s (setFull_launch ..) (setFull_npcAddr ..) (setFull_pcHi ..) (setFull_npcHi ..)
    (iff_of_true rfl trivial) ha

/-- Settles O53. -/
theorem mode64Transfers : Obligations.Mode64Transfers := by
  intro rs rt offset target s hm hd
  have heq := registersEqual_of_mode64 hm rs rt
  have hbranch : (s.branchTarget offset).toNat = ((s.pcAddr.toNat + 4 + 4 * offset.toInt) % 2 ^ s.alen).toNat := by
    rw [← branchTarget_of_mode64 s offset hm, Int.toNat_natCast]
  have hjump := jumpTarget_of_mode64 s target hm
  have hjumpLt := jumpTarget_lt s target
  refine ⟨controlTransfer_completes hd heq (branchTarget_lt s offset) hbranch,
    controlTransfer_completes hd ?_ (branchTarget_lt s offset) hbranch, ?_, ?_,
    controlTransfer_completes hd (iff_of_true rfl trivial) (registerTarget_lt s rs) (registerTarget_of_mode64 s rs hm)⟩
  · rw [Bool.not_eq_true', ← Bool.not_eq_true, heq]
  · obtain ⟨t, ht, hregs, hrest, htransfers⟩ :=
      controlTransfer_completes hd (iff_of_true (rfl : true = true) trivial) hjumpLt rfl
    exact ⟨t, _, ht, hregs, hrest, htransfers, hjump, hjumpLt⟩
  · refine ⟨_, _, execJal_next hd target, ?_, fun r hr => ?_, setLink_transfer_keepsRest s true _,
      setLink_transfer_transfers s hjumpLt, hjump, hjumpLt⟩
    · rw [x64_transfer, setLink_eq, setFull_of_mode64 _ _ _ _ hm, x64_setX64_self, if_neg (by decide), linkValue64_mod]
    · rw [x64_transfer, setLink_eq, x64_setFull_ne _ _ _ _ _ hr]

/-- Settles O54. -/
theorem mode64StoreWord : Obligations.Mode64StoreWord := by
  intro rt offset base s hm
  refine ⟨effectiveAddress_of_mode64 s offset base hm, fun halign htext hheld => ?_⟩
  have hword : s.storedWord rt = Config.storedWord64 (s.x64 rt) := by simp [State.storedWord, hm]
  have hstore := (storeWord_next s _ (s.storedWord rt) (s.effectiveAddress base offset)).2
    ⟨htext, Option.isSome_iff_ne_none.2 hheld, rfl⟩
  refine ⟨_, (aligned_next ..).2 ⟨(wordAligned_iff _).2 halign, hstore⟩, putWord_advances s _ _, ?_⟩
  rw [← hword]
  exact putWord_storesWord s _ _

end Sys2Proof.Machine
end

section
/-! PROOFS. Memory (20_memory.md): which instruction changes it and what no step changes (O15, O45), the bytes of a word
and the load after a store (O38, O39), the instruction placed at `pc` (O9), and that the byte order cannot be observed
(O40). -/

namespace Sys2Proof.Machine

/-! ### What changes memory -/

/-- SW is the only instruction with no destination that is no control transfer. -/
theorem eq_sw_of_writes_nil {i : Instr} (plain : i.isTransfer = false) (writes : i.writes = []) :
    ∃ rt offset base, i = .sw rt offset base := by
  cases i with
  | sw rt offset base => exact ⟨rt, offset, base, rfl⟩
  | _ => simp_all [Instr.isTransfer, Instr.writes]

/-- Settles O45: of the shapes a completed instruction has, only a store touches memory, and only SW has that shape. -/
theorem onlyStoreWordChangesMemory : Obligations.OnlyStoreWordChangesMemory := by
  intro i s t hsw hexec
  have h := exec_completion hexec
  obtain ⟨-, -, hlaunch, -⟩ := completion_sequencing h
  refine ⟨?_, hlaunch⟩
  cases h with
  | store a v plain writes =>
    obtain ⟨rt, offset, base, hi⟩ := eq_sw_of_writes_nil plain writes
    exact absurd hi (hsw rt offset base)
  | _ => simp [setLink_eq]

/-- No completed instruction changes a byte of an aligned text (R53). -/
theorem completion_text {i : Instr} {s t : State} (h : Completion i s t)
    (hbase : wordAligned s.launch.textBase = true) {b : Nat} (hlow : s.launch.textBase.toNat ≤ b)
    (hhigh : b < s.launch.textBase.toNat + 4 * s.launch.textLen) :
    Memory.readByte t.mem b = Memory.readByte s.mem b := by
  obtain hmem | ⟨a, v, hmem, halign, houtside, -⟩ := completion_memory h
  · rw [hmem]
  · have hbase' := aligned_toNat hbase
    have halign' := aligned_toNat halign
    rw [inText_eq_false_iff] at houtside
    rw [hmem, readByte_writeWord_ne _ _ _ _ (by omega)]

/-- Settles O15: a step is the completion of the instruction it fetches, and a store admits only words that memory holds
outside the text. -/
theorem domainAndTextNeverChange : Obligations.DomainAndTextNeverChange := by
  intro s t hs h
  obtain ⟨i, -, hexec⟩ := (step_next s t).1 h
  have hc := exec_completion hexec
  obtain ⟨-, -, hlaunch, -⟩ := completion_sequencing hc
  obtain ⟨hbase, -⟩ := hs.textFits
  exact ⟨hlaunch, completion_domain hc, fun _ => completion_text hc hbase⟩

/-! ### The bytes of a word -/

/-- The bytes of a word put together are the bytes it is taken apart into. -/
theorem wordBytes_bytesWord (e : Endian) (b0 b1 b2 b3 : Byte) :
    wordBytes e (bytesWord e b0 b1 b2 b3) = (b0, b1, b2, b3) := by
  have key (c3 c2 c1 c0 : Byte) : (c3 ++ c2 ++ c1 ++ c0).extractLsb' 24 8 = c3 ∧
      (c3 ++ c2 ++ c1 ++ c0).extractLsb' 16 8 = c2 ∧ (c3 ++ c2 ++ c1 ++ c0).extractLsb' 8 8 = c1 ∧
      (c3 ++ c2 ++ c1 ++ c0).extractLsb' 0 8 = c0 := by
    have := c3.isLt
    have := c2.isLt
    have := c1.isLt
    have := c0.isLt
    refine ⟨?_, ?_, ?_, ?_⟩ <;> apply BitVec.eq_of_toNat_eq <;> rw [Laws.toNat_field] <;>
      simp only [Laws.toNat_concat] <;> omega
  cases e with
  | big =>
    obtain ⟨h3, h2, h1, h0⟩ := key b0 b1 b2 b3
    exact Prod.ext h3 (Prod.ext h2 (Prod.ext h1 h0))
  | little =>
    obtain ⟨h3, h2, h1, h0⟩ := key b3 b2 b1 b0
    exact Prod.ext h0 (Prod.ext h1 (Prod.ext h2 h3))

/-- The four bytes of a word that memory holds, in order of address (R40). -/
theorem readByte_of_readWord {e : Endian} {m : List Host.Cell} {a : Addr} {w : Word}
    (h : Memory.readWord e m a = some w) :
    Memory.readByte m a.toNat = some (wordBytes e w).1 ∧
    Memory.readByte m (a.toNat + 1) = some (wordBytes e w).2.1 ∧
    Memory.readByte m (a.toNat + 2) = some (wordBytes e w).2.2.1 ∧
    Memory.readByte m (a.toNat + 3) = some (wordBytes e w).2.2.2 := by
  obtain ⟨h0, h1, h2, h3⟩ := (readWord_isSome e m a).1 (h ▸ rfl)
  obtain ⟨b0, h0⟩ := Option.isSome_iff_exists.1 h0
  obtain ⟨b1, h1⟩ := Option.isSome_iff_exists.1 h1
  obtain ⟨b2, h2⟩ := Option.isSome_iff_exists.1 h2
  obtain ⟨b3, h3⟩ := Option.isSome_iff_exists.1 h3
  have hw : bytesWord e b0 b1 b2 b3 = w := by simpa [Memory.readWord, h0, h1, h2, h3] using h
  rw [← hw, wordBytes_bytesWord]
  exact ⟨h0, h1, h2, h3⟩

/-- Settles O39: the bytes of the word in order of address, in each order. -/
theorem byteOrderOfAWord : Obligations.ByteOrderOfAWord := by
  intro s a w h
  have hbytes := readByte_of_readWord h
  refine ⟨fun he => ?_, fun he => ?_⟩ <;> rw [he] at hbytes <;> exact hbytes

/-! ### The load after a store -/

/-- A register result in the 32-bit mode. -/
theorem setFull_writesWord {s : State} (r : Reg) (v : Word) (d : DWord) (hm : s.launch.mode64 = false) :
    WritesWord s (s.setFull r v d).advance r v where
  value := by rw [x_advance, setFull_of_mode32 s r v d hm, x_setX_self]
  others q hq := by rw [x_advance, x_setFull_ne s r q v d hq]
  high q := by rw [hi_advance, setFull_of_mode32 s r v d hm, hi_setX]
  rest := setFull_keepsRest s r v d

/-- LW of a word that memory holds at an aligned address completes with it. -/
theorem execLw_of_memRead {s : State} {rt base : Reg} {offset : Imm16} {a : Addr} {w : Word}
    (ha : s.effectiveAddress base offset = a) (halign : wordAligned a = true) (hread : s.memRead a = some w) :
    exec (.lw rt offset base) s = .next (s.setWord rt w).advance := by
  subst ha
  exact (aligned_next ..).2 ⟨halign, (loadWord_next ..).2 ⟨w, hread, rfl⟩⟩

/-- Settles O38: the store was at an aligned address, where its word now reads back. -/
theorem loadReturnsTheLastStore : Obligations.LoadReturnsTheLastStore := by
  intro rt offset base dst offset' base' s t hm hstore haddr
  obtain ⟨halign, hstore⟩ := (aligned_next ..).1 hstore
  obtain ⟨-, -, rfl⟩ := (storeWord_next ..).1 hstore
  have hframe := putWord_storesWord s (s.storedWord rt) (s.effectiveAddress base offset)
  have hword : s.storedWord rt = s.x rt := by simp [State.storedWord, hm]
  refine ⟨_, execLw_of_memRead haddr halign hframe.stored, ?_⟩
  rw [hword]
  exact setFull_writesWord _ _ _ (by simpa using hm)

/-! ### The instruction placed at `pc` -/

section
variable (s : State) (w : Word)

theorem withFetchWord_eq : s.withFetchWord 32 w.toNat = s.placeInstruction w := by
  rw [State.withFetchWord, Nat.mod_eq_of_lt w.isLt, BitVec.ofNat_toNat, BitVec.setWidth_eq]

theorem placeInstruction_memRead : (s.placeInstruction w).memRead s.pcAddr = some w :=
  readWord_writeWord_self ..

/-- No address is its own successor, whatever bits it has above the width of an address. -/
theorem wrap_add_four_ne (a : Addr) : s.wrap (a + 4) ≠ a := by
  intro h
  have four : (4 : Addr).toNat = 4 := rfl
  have hmod := Nat.mod_mod_of_dvd (a.toNat + 4) (Nat.pow_dvd_pow 2 (alen_bounds s).1)
  rw [← four, ← toNat_wrap_add, h, four] at hmod
  omega

/-- Placing an instruction moves the end of the run off `pc`. -/
theorem placeInstruction_endAddr_ne : (s.placeInstruction w).launch.endAddr ≠ s.pcAddr := by
  by_cases h : s.launch.endAddr = s.pcAddr
  · simpa [State.placeInstruction, h] using wrap_add_four_ne s s.pcAddr
  · simp [State.placeInstruction, h]

/-- With an instruction placed the run is not over. -/
theorem placeInstruction_isOver : (s.placeInstruction w).isOver = false :=
  (isOver_eq_false_iff _).2 fun ⟨h, _⟩ => placeInstruction_endAddr_ne s w h.symm

/-- Placing an instruction makes `pc` part of the text where it was not. -/
theorem placeInstruction_inText : (s.placeInstruction w).inText s.pcAddr = true := by
  rw [inText_iff]
  by_cases h : s.inText s.pcAddr = true
  · simpa [State.placeInstruction, h] using (inText_iff s _).1 h
  · simp [State.placeInstruction, h]

end

/-- Settles O9: with the instruction placed, each check of the fetch passes. -/
theorem placedInstructionRunsNext : Obligations.PlacedInstructionRunsNext := by
  intro s w i halign hdecode
  rw [withFetchWord_eq]
  exact step_of_fetchInstr_next _ ((fetchInstr_next _ i).2 ⟨placeInstruction_isOver s w, halign,
    placeInstruction_inText s w, w, placeInstruction_memRead s w, hdecode⟩)

/-! ### The byte order

A state that agrees with `s` on all that a program can see is `s` with another byte order and other bytes. Every
instruction but SW commutes with that change, because it reads memory by words and writes none of it. -/

/-- The state with another byte order and other bytes. -/
def State.withLayout (s : State) (e : Endian) (m : List Host.Cell) : State :=
  { s with mem := m, launch := { s.launch with endian := e } }

section
variable (s : State) (e : Endian) (m : List Host.Cell)

/-- The same words, laid out otherwise, make the same state for a program. -/
theorem sameWords_withLayout (h : ∀ a, wordAligned a = true → s.memRead a = Memory.readWord e m a) :
    SameWords s (s.withLayout e m) where
  gpr := rfl
  gprHi := rfl
  pc := rfl
  pcHi := rfl
  npc := rfl
  npcHi := rfl
  ds := rfl
  draws := rfl
  textBase := rfl
  textLen := rfl
  endAddr := rfl
  mode64 := rfl
  addressBits := rfl
  words := h

/-- States with the same words differ in the layout of memory only. -/
theorem SameWords.eq_withLayout {s t : State} (h : SameWords s t) : t = s.withLayout t.launch.endian t.mem := by
  obtain ⟨_, _, _, _, _, _, _, _, ⟨_, _, _, _, _, _⟩, _⟩ := s
  obtain ⟨_, _, _, _, _, _, _, _, ⟨_, _, _, _, _, _⟩, _⟩ := t
  obtain ⟨rfl, rfl, rfl, rfl, rfl, rfl, rfl, rfl, rfl, rfl, rfl, rfl, rfl, -⟩ := h
  rfl

variable (r : Reg) (v : Word) (d : DWord) (a : Addr) (taken : Bool)

@[simp] theorem withLayout_ds : (s.withLayout e m).ds = s.ds := rfl
@[simp] theorem withLayout_pcAddr : (s.withLayout e m).pcAddr = s.pcAddr := rfl
@[simp] theorem withLayout_isOver : (s.withLayout e m).isOver = s.isOver := rfl
@[simp] theorem withLayout_inText : (s.withLayout e m).inText a = s.inText a := rfl
@[simp] theorem withLayout_memRead : (s.withLayout e m).memRead a = Memory.readWord e m a := rfl

theorem setX_withLayout : (s.withLayout e m).setX r v = (s.setX r v).withLayout e m := by
  unfold State.setX
  split <;> rfl

theorem setHi_withLayout : (s.withLayout e m).setHi r v = (s.setHi r v).withLayout e m := by
  unfold State.setHi
  split <;> rfl

theorem setX64_withLayout : (s.withLayout e m).setX64 r d = (s.setX64 r d).withLayout e m := by
  rw [State.setX64, setX_withLayout, setHi_withLayout, State.setX64]

theorem setFull_withLayout : (s.withLayout e m).setFull r v d = (s.setFull r v d).withLayout e m := by
  cases hm : s.launch.mode64
  · rw [setFull_of_mode32 s _ _ _ hm, setFull_of_mode32 (s.withLayout e m) _ _ _ hm, setX_withLayout]
  · rw [setFull_of_mode64 s _ _ _ hm, setFull_of_mode64 (s.withLayout e m) _ _ _ hm, setX64_withLayout]

theorem drawInto_withLayout : (s.withLayout e m).drawInto r = (s.drawInto r).withLayout e m := by
  rw [State.drawInto, setX64_withLayout]
  rfl

theorem sequence_withLayout : (s.withLayout e m).sequence a taken = (s.sequence a taken).withLayout e m := by
  unfold State.sequence
  cases hm : s.launch.mode64 <;> simp [State.withLayout, hm]

theorem advance_withLayout : (s.withLayout e m).advance = s.advance.withLayout e m := sequence_withLayout ..

theorem transfer_withLayout : (s.withLayout e m).transfer taken a = (s.transfer taken a).withLayout e m :=
  sequence_withLayout ..

/-! Each shared operation in another layout. -/

theorem finishFull_withLayout : finishFull (s.withLayout e m) r v d =
    mapNext (·.withLayout e m) (finishFull s r v d) := by
  rw [finishFull, setFull_withLayout, advance_withLayout]
  rfl

theorem finishWord_withLayout : finishWord (s.withLayout e m) r v = mapNext (·.withLayout e m) (finishWord s r v) :=
  finishFull_withLayout ..

theorem addChecked_withLayout (b c : Word) : addChecked (s.withLayout e m) r b c =
    mapNext (·.withLayout e m) (addChecked s r b c) := by
  unfold addChecked
  split
  · rfl
  · exact finishWord_withLayout ..

theorem wordOperation_withLayout (sources : List Reg) {run run' : StepResult}
    (h : run' = mapNext (·.withLayout e m) run) :
    wordOperation (s.withLayout e m) r sources run' = mapNext (·.withLayout e m) (wordOperation s r sources run) := by
  cases hv : s.operandsValid sources
  · rw [wordOperation_of_invalid s _ _ _ hv, wordOperation_of_invalid (s.withLayout e m) _ _ _ hv,
      drawInto_withLayout, advance_withLayout]
    rfl
  · rw [wordOperation_of_valid s _ _ _ hv, wordOperation_of_valid (s.withLayout e m) _ _ _ hv, h]

theorem controlTransfer_withLayout : controlTransfer (s.withLayout e m) taken a =
    mapNext (·.withLayout e m) (controlTransfer s taken a) := by
  unfold controlTransfer
  rw [transfer_withLayout, withLayout_ds, withLayout_pcAddr]
  split <;> rfl

theorem aligned_withLayout (kind : AccessKind) {access access' : StepResult}
    (h : wordAligned a = true → access' = mapNext (·.withLayout e m) access) :
    aligned (s.withLayout e m) kind a access' = mapNext (·.withLayout e m) (aligned s kind a access) := by
  unfold aligned
  split
  case isTrue ha => exact h ha
  case isFalse => rfl

theorem loadWord_withLayout (hread : s.memRead a = Memory.readWord e m a) {use use' : Word → StepResult}
    (h : ∀ w, use' w = mapNext (·.withLayout e m) (use w)) :
    loadWord (s.withLayout e m) a use' = mapNext (·.withLayout e m) (loadWord s a use) := by
  unfold loadWord
  rw [withLayout_memRead, ← hread]
  cases s.memRead a with
  | none => rfl
  | some w => exact h w

end

section
variable {s : State} {e : Endian} {m : List Host.Cell}
  (hwords : ∀ a, wordAligned a = true → s.memRead a = Memory.readWord e m a)
include hwords

/-- The fetch reads the word at an aligned `pc`, so it yields the same instruction in another layout. -/
theorem fetchInstr_withLayout : fetchInstr (s.withLayout e m) = fetchInstr s := by
  unfold fetchInstr
  rw [withLayout_isOver, withLayout_pcAddr, withLayout_inText, withLayout_memRead]
  cases ha : wordAligned s.pcAddr
  · rfl
  · rw [hwords _ ha]

/-- Every instruction but SW commutes with a change of the layout. -/
theorem exec_withLayout {i : Instr} (hi : ∀ rt offset base, i ≠ .sw rt offset base) :
    exec i (s.withLayout e m) = mapNext (·.withLayout e m) (exec i s) := by
  cases i with
  | add rd rs rt => exact wordOperation_withLayout s e m rd _ (addChecked_withLayout ..)
  | addi rt rs imm => exact wordOperation_withLayout s e m rt _ (addChecked_withLayout ..)
  | addiu rt rs imm => exact wordOperation_withLayout s e m rt _ (finishWord_withLayout ..)
  | addu rd rs rt => exact wordOperation_withLayout s e m rd _ (finishWord_withLayout ..)
  | subu rd rs rt => exact wordOperation_withLayout s e m rd _ (finishWord_withLayout ..)
  | srl rd rt sa => exact wordOperation_withLayout s e m rd _ (finishWord_withLayout ..)
  | sll rd rt sa => exact finishWord_withLayout ..
  | lui rt imm => exact finishWord_withLayout ..
  | and rd rs rt => exact finishFull_withLayout ..
  | andi rt rs imm => exact finishFull_withLayout ..
  | nor rd rs rt => exact finishFull_withLayout ..
  | or rd rs rt => exact finishFull_withLayout ..
  | ori rt rs imm => exact finishFull_withLayout ..
  | sltu rd rs rt => exact finishFull_withLayout ..
  | beq rs rt offset => exact controlTransfer_withLayout ..
  | bne rs rt offset => exact controlTransfer_withLayout ..
  | j target => exact controlTransfer_withLayout ..
  | jal target =>
    have hlink : (s.withLayout e m).setLink = s.setLink.withLayout e m := setFull_withLayout ..
    simp only [exec, execJal, hlink]
    exact controlTransfer_withLayout ..
  | jr rs => exact controlTransfer_withLayout ..
  | lw rt offset base =>
    exact aligned_withLayout s e m _ .load fun ha =>
      loadWord_withLayout s e m _ (hwords _ ha) fun w => finishWord_withLayout s e m rt w
  | sw rt offset base => exact absurd rfl (hi rt offset base)

/-- An outcome whose next state, if any, has memory as it was agrees with its change of layout. -/
theorem sameOutcome_mapNext_withLayout {o : StepResult}
    (ho : ∀ t, o = .next t → t.mem = s.mem ∧ t.launch = s.launch) :
    SameOutcome o (mapNext (·.withLayout e m) o) := by
  cases o with
  | next t =>
    obtain ⟨hmem, hlaunch⟩ := ho t rfl
    exact sameWords_withLayout t e m fun a ha => by rw [State.memRead, hmem, hlaunch]; exact hwords a ha
  | fault f => rfl
  | refused q => rfl

/-- A word stored in both layouts leaves the same words. -/
theorem sameWords_putWord {a : Addr} (ha : wordAligned a = true) (v : Word) :
    SameWords (s.putWord a v).advance ((s.withLayout e m).putWord a v).advance := by
  have hput : (s.withLayout e m).putWord a v = (s.putWord a v).withLayout e (Memory.writeWord e m a v) := rfl
  rw [hput, advance_withLayout]
  refine sameWords_withLayout _ _ _ fun c hc => ?_
  rw [State.memRead, advance_mem, advance_launch, putWord_mem, putWord_launch]
  by_cases hca : c = a
  · rw [hca, readWord_writeWord_self, readWord_writeWord_self]
  · rw [readWord_writeWord_ne _ _ _ _ _ ha hc hca, readWord_writeWord_ne _ _ _ _ _ ha hc hca]
    exact hwords c hc

/-- A store at an aligned address has the same outcome in another layout. -/
theorem sameOutcome_storeWord {a : Addr} (ha : wordAligned a = true) (v : Word) :
    SameOutcome (storeWord s a v) (storeWord (s.withLayout e m) a v) := by
  unfold storeWord
  rw [withLayout_memRead, withLayout_inText, ← hwords a ha]
  split
  · rfl
  · split
    · exact sameWords_putWord hwords ha v
    · rfl

/-- SW has the same outcome in another layout. -/
theorem sameOutcome_execSw (rt base : Reg) (offset : Imm16) :
    SameOutcome (execSw rt offset base s) (execSw rt offset base (s.withLayout e m)) := by
  have haddr : (s.withLayout e m).effectiveAddress base offset = s.effectiveAddress base offset := rfl
  have hword : (s.withLayout e m).storedWord rt = s.storedWord rt := rfl
  unfold execSw aligned
  rw [haddr, hword]
  split
  case isTrue ha => exact sameOutcome_storeWord hwords ha _
  case isFalse => rfl

/-- Every instruction has the same outcome in another layout. -/
theorem sameOutcome_exec (i : Instr) : SameOutcome (exec i s) (exec i (s.withLayout e m)) := by
  by_cases hi : ∀ rt offset base, i ≠ .sw rt offset base
  · rw [exec_withLayout hwords hi]
    exact sameOutcome_mapNext_withLayout hwords fun t => onlyStoreWordChangesMemory i s t hi
  · push Not at hi
    obtain ⟨rt, offset, base, rfl⟩ := hi
    exact sameOutcome_execSw hwords rt base offset

end

/-- Settles O40: the fetch yields the same instruction in both layouts, and that instruction has the same outcome. -/
theorem byteOrderIsUnobservable : Obligations.ByteOrderIsUnobservable := by
  intro s t h
  rw [h.eq_withLayout]
  have hwords := h.words
  unfold step
  rw [fetchInstr_withLayout hwords]
  cases fetchInstr s with
  | next i => exact sameOutcome_exec hwords i
  | fault f => rfl
  | refused q => rfl

end Sys2Proof.Machine
end

section
/-! PROOFS. The encoding (R61 to R76): decoding and encoding undo each other, a row's match and mask select the words that
carry its must-be-zero fields, and the step refuses every other word (O1 to O5). -/

namespace Sys2Proof.Laws

/-! ### Decoding an encoded instruction -/

theorem decodeWord_encodeR (rs rt rd : Reg) (sa : Shamt) (f : BitVec 6) :
    decodeWord (encodeR rs rt rd sa f) = decodeSpecial (encodeR rs rt rd sa f) := by
  simp [decodeWord]

/-- Settles O1: by the format of the instruction's word, whose fields are the operands. -/
theorem decodeOfEncode : Obligations.DecodeOfEncode := by
  intro i
  cases i with
  | j | jal => simp [encode, decodeWord]
  | addi | addiu | andi | beq | bne | lw | ori | sw => simp [encode, decodeWord]
  | lui => simp [encode, decodeWord, strictly]
  | add | addu | and | nor | or | sltu | subu | sll | srl | jr =>
    simp [encode, decodeWord_encodeR, decodeSpecial, strictly]

/-! ### Words by their fields

One lemma per set of must-be-zero fields (R72): the word whose opcode, function code and zero fields are known is what the
encoder writes of the others. -/

section
variable {w : Word} {op f : BitVec 6}

theorem encodeR_of_register (hop : fieldOpcode w = 0) (hsa : fieldSa w = 0) (hf : fieldFunct w = f) :
    encodeR (fieldRs w) (fieldRt w) (fieldRd w) 0 f = w := by
  simpa only [hsa, hf] using encodeR_fields w hop

theorem encodeR_of_shift (hop : fieldOpcode w = 0) (hrs : fieldRs w = 0) (hf : fieldFunct w = f) :
    encodeR 0 (fieldRt w) (fieldRd w) (fieldSa w) f = w := by
  simpa only [hrs, hf] using encodeR_fields w hop

theorem encodeR_of_jr (hop : fieldOpcode w = 0) (hrt : fieldRt w = 0) (hrd : fieldRd w = 0) (hsa : fieldSa w = 0)
    (hf : fieldFunct w = f) : encodeR (fieldRs w) 0 0 0 f = w := by
  simpa only [hrt, hrd, hsa, hf] using encodeR_fields w hop

theorem encodeI_of_opcode (hop : fieldOpcode w = op) : encodeI op (fieldRs w) (fieldRt w) (fieldImm w) = w :=
  hop ▸ encodeI_fields w

theorem encodeI_of_lui (hop : fieldOpcode w = op) (hrs : fieldRs w = 0) :
    encodeI op 0 (fieldRt w) (fieldImm w) = w := by
  simpa only [hop, hrs] using encodeI_fields w

theorem encodeJ_of_opcode (hop : fieldOpcode w = op) : encodeJ op (fieldTarget w) = w := hop ▸ encodeJ_fields w

end

/-! ### Encoding a decoded word -/

theorem strictly_eq_instr {fieldsZero : Bool} {i j : Instr} :
    strictly fieldsZero i = .instr j ↔ fieldsZero = true ∧ i = j := by
  cases fieldsZero <;> simp [strictly]

/-- The instructions of opcode 0: the three-register ones, the shifts and JR, each with its own must-be-zero fields. -/
theorem encode_of_decodeSpecial {w : Word} {i : Instr} (hop : fieldOpcode w = 0) :
    decodeSpecial w = .instr i → encode i = w := by
  fun_cases decodeSpecial w with
  | case1 | case2 =>
    rw [strictly_eq_instr]
    rintro ⟨hrs, rfl⟩
    exact encodeR_of_shift hop (beq_iff_eq.1 hrs) ‹_›
  | case3 =>
    simp only [strictly_eq_instr, Bool.and_eq_true, beq_iff_eq]
    rintro ⟨⟨⟨hrt, hrd⟩, hsa⟩, rfl⟩
    exact encodeR_of_jr hop hrt hrd hsa ‹_›
  | case4 | case5 | case6 | case7 | case8 | case9 | case10 =>
    rw [strictly_eq_instr]
    rintro ⟨hsa, rfl⟩
    exact encodeR_of_register hop (beq_iff_eq.1 hsa) ‹_›
  | case11 => rintro ⟨⟩

/-- Settles O2: opcode 0; J and JAL; LUI, with its must-be-zero field; a reserved opcode; the other I-format words. -/
theorem encodeOfDecode : Obligations.EncodeOfDecode := by
  intro w i
  fun_cases decodeWord w with
  | case1 => exact encode_of_decodeSpecial ‹_›
  | case2 | case3 =>
    rintro ⟨⟩
    exact encodeJ_of_opcode ‹_›
  | case10 =>
    rw [strictly_eq_instr]
    rintro ⟨hrs, rfl⟩
    exact encodeI_of_lui ‹_› (beq_iff_eq.1 hrs)
  | case13 => rintro ⟨⟩
  | case4 | case5 | case6 | case7 | case8 | case9 | case11 | case12 =>
    rintro ⟨⟩
    exact encodeI_of_opcode ‹_›

/-- An instruction has one word, the encoder's. -/
theorem decodeWord_eq_instr_iff {w : Word} {i : Instr} : decodeWord w = .instr i ↔ encode i = w :=
  ⟨encodeOfDecode w i, fun h => h ▸ decodeOfEncode i⟩

/-! ### Match and mask (R73) -/

/-- A field that the mask covers has the value that the match gives it. -/
theorem field_of_mask {w m b : Word} (h : w &&& m = b) (lo len : Nat)
    (hm : m.extractLsb' lo len = BitVec.allOnes len) : w.extractLsb' lo len = b.extractLsb' lo len := by
  rw [← h, BitVec.extractLsb'_and, hm, BitVec.and_allOnes]

/-! The converses of `RowFit.fits_register` and its like: one lemma per mask. -/

section
variable {w : Word} {op f : BitVec 6}

theorem encodeR_of_mask_register (h : w &&& 0xFC0007FF = encodeR 0 0 0 0 f) :
    encodeR (fieldRs w) (fieldRt w) (fieldRd w) 0 f = w :=
  encodeR_of_register ((field_of_mask h 26 6 rfl).trans (fieldOpcode_encodeR ..))
    ((field_of_mask h 6 5 rfl).trans (fieldSa_encodeR ..)) ((field_of_mask h 0 6 rfl).trans (fieldFunct_encodeR ..))

theorem encodeR_of_mask_shift (h : w &&& 0xFFE0003F = encodeR 0 0 0 0 f) :
    encodeR 0 (fieldRt w) (fieldRd w) (fieldSa w) f = w :=
  encodeR_of_shift ((field_of_mask h 26 6 rfl).trans (fieldOpcode_encodeR ..))
    ((field_of_mask h 21 5 rfl).trans (fieldRs_encodeR ..)) ((field_of_mask h 0 6 rfl).trans (fieldFunct_encodeR ..))

theorem encodeR_of_mask_jr (h : w &&& 0xFC1FFFFF = encodeR 0 0 0 0 f) : encodeR (fieldRs w) 0 0 0 f = w :=
  encodeR_of_jr ((field_of_mask h 26 6 rfl).trans (fieldOpcode_encodeR ..))
    ((field_of_mask h 16 5 rfl).trans (fieldRt_encodeR ..)) ((field_of_mask h 11 5 rfl).trans (fieldRd_encodeR ..))
    ((field_of_mask h 6 5 rfl).trans (fieldSa_encodeR ..)) ((field_of_mask h 0 6 rfl).trans (fieldFunct_encodeR ..))

theorem encodeI_of_mask_immediate (h : w &&& 0xFC000000 = encodeI op 0 0 0) :
    encodeI op (fieldRs w) (fieldRt w) (fieldImm w) = w :=
  encodeI_of_opcode ((field_of_mask h 26 6 rfl).trans (fieldOpcode_encodeI ..))

theorem encodeI_of_mask_lui (h : w &&& 0xFFE00000 = encodeI op 0 0 0) :
    encodeI op 0 (fieldRt w) (fieldImm w) = w :=
  encodeI_of_lui ((field_of_mask h 26 6 rfl).trans (fieldOpcode_encodeI ..))
    ((field_of_mask h 21 5 rfl).trans (fieldRs_encodeI ..))

theorem encodeJ_of_mask_jump (h : w &&& 0xFC000000 = encodeJ op 0) : encodeJ op (fieldTarget w) = w :=
  encodeJ_of_opcode ((field_of_mask h 26 6 rfl).trans (fieldOpcode_encodeJ ..))

end

/-- The word is one the encoder writes for the row's mnemonic. -/
def Bears (w : Word) (row : EncodingRow) : Prop := ∃ i, encode i = w ∧ i.mnemonic = row.mnemonic

/-- A row's match and mask select only words of its mnemonic. -/
theorem bears_of_mask {w : Word} : ∀ row ∈ encodingTable, w &&& row.mask = row.bits → Bears w row := by
  simp only [encodingTable, List.cons_append, List.nil_append, List.forall_mem_cons]
  exact
    ⟨fun h => ⟨.add _ _ _, encodeR_of_mask_register h, rfl⟩,
     fun h => ⟨.addi _ _ _, encodeI_of_mask_immediate h, rfl⟩,
     fun h => ⟨.addiu _ _ _, encodeI_of_mask_immediate h, rfl⟩,
     fun h => ⟨.addu _ _ _, encodeR_of_mask_register h, rfl⟩,
     fun h => ⟨.and _ _ _, encodeR_of_mask_register h, rfl⟩,
     fun h => ⟨.andi _ _ _, encodeI_of_mask_immediate h, rfl⟩,
     fun h => ⟨.beq _ _ _, encodeI_of_mask_immediate h, rfl⟩,
     fun h => ⟨.bne _ _ _, encodeI_of_mask_immediate h, rfl⟩,
     fun h => ⟨.j _, encodeJ_of_mask_jump h, rfl⟩,
     fun h => ⟨.jal _, encodeJ_of_mask_jump h, rfl⟩,
     fun h => ⟨.jr _, encodeR_of_mask_jr h, rfl⟩,
     fun h => ⟨.lui _ _, encodeI_of_mask_lui h, rfl⟩,
     fun h => ⟨.lw _ _ _, encodeI_of_mask_immediate h, rfl⟩,
     fun h => ⟨.nor _ _ _, encodeR_of_mask_register h, rfl⟩,
     fun h => ⟨.or _ _ _, encodeR_of_mask_register h, rfl⟩,
     fun h => ⟨.ori _ _ _, encodeI_of_mask_immediate h, rfl⟩,
     fun h => ⟨.sll _ _ _, encodeR_of_mask_shift h, rfl⟩,
     fun h => ⟨.sltu _ _ _, encodeR_of_mask_register h, rfl⟩,
     fun h => ⟨.srl _ _ _, encodeR_of_mask_shift h, rfl⟩,
     fun h => ⟨.subu _ _ _, encodeR_of_mask_register h, rfl⟩,
     fun h => ⟨.sw _ _ _, encodeI_of_mask_immediate h, rfl⟩,
     fun _ hn => nomatch hn⟩

/-- Every instruction's word fits the row of its mnemonic. -/
theorem rowFit (i : Instr) : RowFit.Statement i := by
  cases i with
  | add => exact RowFit.add ..
  | addi => exact RowFit.addi ..
  | addiu => exact RowFit.addiu ..
  | addu => exact RowFit.addu ..
  | and => exact RowFit.and ..
  | andi => exact RowFit.andi ..
  | beq => exact RowFit.beq ..
  | bne => exact RowFit.bne ..
  | j => exact RowFit.j ..
  | jal => exact RowFit.jal ..
  | jr => exact RowFit.jr ..
  | lui => exact RowFit.lui ..
  | lw => exact RowFit.lw ..
  | nor => exact RowFit.nor ..
  | or => exact RowFit.or ..
  | ori => exact RowFit.ori ..
  | sll => exact RowFit.sll ..
  | sltu => exact RowFit.sltu ..
  | srl => exact RowFit.srl ..
  | subu => exact RowFit.subu ..
  | sw => exact RowFit.sw ..

/-- No two rows have the same mnemonic. -/
theorem mnemonics_nodup : (encodingTable.map EncodingRow.mnemonic).Nodup := by decide

/-- A row's match and mask select every word of its mnemonic: the row that the word fits can be no other. -/
theorem mask_of_bears {w : Word} {row : EncodingRow} (hrow : row ∈ encodingTable) (h : Bears w row) :
    w &&& row.mask = row.bits := by
  obtain ⟨i, rfl, hname⟩ := h
  obtain ⟨row', hrow', hname', hfit⟩ := rowFit i
  have hsame : row' = row := List.inj_on_of_nodup_map mnemonics_nodup hrow' hrow (hname'.trans hname)
  exact hsame ▸ beq_iff_eq.1 hfit

/-- Settles O3: both sides say that the word is the encoder's for an instruction of the row. -/
theorem matchAndMaskSelectTheInstruction : Obligations.MatchAndMaskSelectTheInstruction := by
  intro w row hrow
  simp only [decodeWord_eq_instr_iff]
  exact ⟨bears_of_mask row hrow, mask_of_bears hrow⟩

/-! ### Reserved words (R76) -/

/-- A word is an instruction of some row, or reserved. -/
theorem reserved_iff (w : Word) :
    (∃ why, decodeWord w = .reserved why) ↔ ∀ row ∈ encodingTable, w &&& row.mask ≠ row.bits := by
  constructor
  · rintro ⟨why, hd⟩ row hrow hmask
    obtain ⟨i, hi, -⟩ := (matchAndMaskSelectTheInstruction w row hrow).1 hmask
    cases hd.symm.trans hi
  · intro hno
    cases hd : decodeWord w with
    | reserved why => exact ⟨why, rfl⟩
    | instr i =>
      obtain ⟨row, hrow, -, hfit⟩ := rowFit i
      rw [encodeOfDecode w i hd] at hfit
      exact absurd (beq_iff_eq.1 hfit) (hno row hrow)

end Sys2Proof.Laws

namespace Sys2Proof.Machine

/-- R26 step 5. -/
theorem step_of_reserved {s : State} {w : Word} {why : Reserved} (h : Fetches s w) (hd : decodeWord w = .reserved why) :
    step s = .refused (.reservedEncoding s.pcAddr w) := by
  have hgoing := (isOver_eq_false_iff s).2 h.going
  have halign := (wordAligned_iff _).2 h.align
  have htext := (inText_iff s _).2 ⟨h.above, h.below⟩
  simp [step, fetchInstr, hgoing, halign, htext, h.held, hd]

/-- Settles O4: outside the table there is no instruction to fetch. -/
theorem reservedExactlyOutsideTheTable : Obligations.ReservedExactlyOutsideTheTable := by
  intro w
  refine ⟨Laws.reserved_iff w, fun s hs hno => ?_⟩
  obtain ⟨why, hd⟩ := (Laws.reserved_iff w).2 hno
  exact step_of_reserved hs hd

/-- Settles O5: twelve words, each decoded by evaluation. -/
theorem specWordsDecode : Obligations.SpecWordsDecode := by
  unfold Obligations.SpecWordsDecode
  decide

end Sys2Proof.Machine
end

section
/-! PROOFS. The operand fields the assembler computes (R82): the ranges it accepts, and that the hardware reads back from
each field the label or the number written (O47). -/

namespace Sys2Proof.Machine

/-! ### The ranges -/

/-- R82's alignment of a label, as a number. -/
theorem wordAligned_word_iff (l : Word) : wordAligned l = true ↔ l.toNat % 4 = 0 := by
  rw [wordAligned, beq_iff_eq, ← BitVec.toNat_inj, Laws.toNat_field]
  simp

/-- Two addresses are in one 256 MiB region (R68). -/
theorem region_eq_iff (a l : Word) :
    l.extractLsb' 28 4 = a.extractLsb' 28 4 ↔ l.toNat / 2 ^ 28 = a.toNat / 2 ^ 28 := by
  rw [← BitVec.toNat_inj, Laws.toNat_field, Laws.toNat_field]
  omega

theorem branchOffsetTo_eq_some {a l : Word} {offset : Imm16} : branchOffsetTo a l = some offset ↔
    ((l - (a + 4)).toInt % 4 = 0 ∧ -131072 ≤ (l - (a + 4)).toInt ∧ (l - (a + 4)).toInt ≤ 131068) ∧
      BitVec.ofInt 16 ((l - (a + 4)).toInt / 4) = offset := by
  simp [branchOffsetTo]

theorem jumpFieldTo_eq_some {a l : Word} {target : Target26} : jumpFieldTo a l = some target ↔
    (l.toNat % 4 = 0 ∧ l.toNat / 2 ^ 28 = (a + 4).toNat / 2 ^ 28) ∧ l.extractLsb' 2 26 = target := by
  rw [← wordAligned_word_iff, ← region_eq_iff]
  simp [jumpFieldTo]

/-! ### What the hardware reads back -/

/-- A signed number that fits in 16 bits is the value of its field. -/
theorem toInt_ofInt_imm {n : Int} (hlo : -32768 ≤ n) (hhi : n ≤ 32767) : (BitVec.ofInt 16 n).toInt = n :=
  BitVec.toInt_ofInt_eq_self (by decide) hlo (by omega)

/-- An assembled branch offset is the distance from the delay slot, in words. -/
theorem toInt_of_branchOffsetTo {a l : Word} {offset : Imm16} (h : branchOffsetTo a l = some offset) :
    4 * offset.toInt = (l - (a + 4)).toInt := by
  obtain ⟨⟨hmul, hlo, hhi⟩, rfl⟩ := branchOffsetTo_eq_some.1 h
  rw [toInt_ofInt_imm (by omega) (by omega)]
  omega

/-- The hardware adds the distance to the delay slot's address (R67). -/
theorem branchTarget_of_branchOffsetTo {s : State} {l : Word} {offset : Imm16} (hm : s.launch.mode64 = false)
    (h : branchOffsetTo s.pc l = some offset) : (s.branchTarget offset).toNat = l.toNat := by
  have hl : (l.toNat : Int) = ((s.pc + 4).toNat + (l - (s.pc + 4)).toInt) % 2 ^ 32 := by
    rw [← toNat_add_toInt, BitVec.add_comm, BitVec.sub_add_cancel]
  have ht := branchTarget_of_mode32 s offset hm
  rw [toInt_of_branchOffsetTo h] at ht
  rw [BitVec.toNat_add] at hl
  have : (4 : Word).toNat = 4 := rfl
  omega

/-- The hardware puts the field under the region bits of the delay slot's address (R68). -/
theorem jumpTarget_of_jumpFieldTo {s : State} {l : Word} {target : Target26} (hm : s.launch.mode64 = false)
    (h : jumpFieldTo s.pc l = some target) : (s.jumpTarget target).toNat = l.toNat := by
  obtain ⟨⟨halign, hregion⟩, rfl⟩ := jumpFieldTo_eq_some.1 h
  rw [BitVec.toNat_add] at hregion
  rw [jumpTarget_of_mode32 s _ hm, Laws.toNat_field]
  have : (4 : Word).toNat = 4 := rfl
  omega

theorem toInt_of_signedConstant {n : Int} {imm : Imm16} (h : signedConstant n = some imm) :
    (signedImm imm).toInt = n := by
  obtain ⟨⟨hlo, hhi⟩, rfl⟩ : (-32768 ≤ n ∧ n ≤ 32767) ∧ BitVec.ofInt 16 n = imm := by simpa [signedConstant] using h
  rw [toInt_signedImm, toInt_ofInt_imm hlo hhi]

theorem toNat_of_unsignedConstant {n : Nat} {imm : Imm16} (h : unsignedConstant n = some imm) :
    (zeroImm imm).toNat = n := by
  obtain ⟨hn, rfl⟩ : n ≤ 65535 ∧ BitVec.ofNat 16 n = imm := by simpa [unsignedConstant] using h
  rw [zeroImm, BitVec.toNat_setWidth, BitVec.toNat_ofNat]
  omega

theorem toNat_of_shiftConstant {n : Nat} {sa : Shamt} (h : shiftConstant n = some sa) : sa.toNat = n := by
  obtain ⟨hn, rfl⟩ : n ≤ 31 ∧ BitVec.ofNat 5 n = sa := by simpa [shiftConstant] using h
  rw [BitVec.toNat_ofNat]
  omega

/-- Settles O47: the five ranges, then what the hardware makes of each field. -/
theorem assembledOperandsMeanTheirLabels : Obligations.AssembledOperandsMeanTheirLabels :=
  ⟨fun a l => by simp [Option.isSome_iff_exists, branchOffsetTo_eq_some],
   fun a l => by simp [Option.isSome_iff_exists, jumpFieldTo_eq_some],
   fun n => by simp [signedConstant],
   fun n => by simp [unsignedConstant],
   fun n => by simp [shiftConstant],
   fun _ _ _ => branchTarget_of_branchOffsetTo, fun _ _ _ => jumpTarget_of_jumpFieldTo,
   fun _ _ => toInt_of_signedConstant, fun _ _ => toNat_of_unsignedConstant, fun _ _ => toNat_of_shiftConstant⟩

end Sys2Proof.Machine
end

section
/-! PROOFS. Arithmetic and comparison (40_arithmetic.md) in the normative 32-bit mode: the forms of signed overflow (O18)
and the results of ADD, ADDI, ADDIU, ADDU, SLTU and SUBU (O19 to O24). -/

namespace Sys2Proof.Machine

/-! ### Signed overflow (R100) -/

/-- R100: the carries out of bits 30 and 31 differ exactly when the signed sum is not representable. -/
theorem addOverflows_iff (a b : Word) :
    addOverflows a b = true ↔ a.toInt + b.toInt < -2 ^ 31 ∨ 2 ^ 31 ≤ a.toInt + b.toInt := by
  rw [← Bool.not_eq_false, addOverflows_eq_false_iff]
  omega

/-- The model's carry form is the library's overflow test. -/
theorem addOverflows_eq_saddOverflow (a b : Word) : addOverflows a b = a.saddOverflow b := by
  rw [Bool.eq_iff_iff, addOverflows_iff, BitVec.saddOverflow, Bool.or_eq_true, decide_eq_true_iff, decide_eq_true_iff]
  exact or_comm

/-- Settles O18: the form by signs is the library's `saddOverflow_eq`. -/
theorem addOverflowForms : Obligations.AddOverflowForms := fun a b =>
  ⟨by simp [addOverflows_eq_saddOverflow, BitVec.saddOverflow_eq], addOverflows_iff a b⟩

/-! ### Results in the 32-bit mode -/

section
variable {s : State} (r : Reg) {sources : List Reg} (hm : s.launch.mode64 = false)
include hm

theorem finishFull_of_mode32 (v : Word) (d : DWord) :
    ∃ t, finishFull s r v d = .next t ∧ Advances s t ∧ WritesWord s t r v :=
  ⟨_, rfl, setFull_advances s r v d, setFull_writesWord r v d hm⟩

/-- A word operation writes its result: in the 32-bit mode every operand is valid. -/
theorem wordOperation_finishWord_of_mode32 {v w : Word} (h : v = w) :
    ∃ t, wordOperation s r sources (finishWord s r v) = .next t ∧ Advances s t ∧ WritesWord s t r w := by
  rw [wordOperation_of_mode32 s r sources _ hm, h]
  exact finishFull_of_mode32 r hm w (w.signExtend 64)

/-- The sum of ADD and ADDI, in both clauses: written if it is representable, else `Overflow` (R101, R102). -/
theorem wordOperation_addChecked_of_mode32 {a b : Word} {n : Int} (hn : a.toInt + b.toInt = n) :
    (-2 ^ 31 ≤ n ∧ n < 2 ^ 31 →
      ∃ t, wordOperation s r sources (addChecked s r a b) = .next t ∧ Advances s t ∧
        WritesWord s t r (BitVec.ofInt 32 n)) ∧
    (¬(-2 ^ 31 ≤ n ∧ n < 2 ^ 31) →
      wordOperation s r sources (addChecked s r a b) = .fault (.raised .overflow s.pcAddr)) := by
  refine ⟨fun h => ?_, wordOperation_addChecked_overflow r (operandsValid_of_mode32 s sources hm) hn⟩
  have hsum : addChecked s r a b = finishWord s r (a + b) :=
    (addChecked_next ..).2 ⟨(addOverflows_eq_false_iff a b).2 (hn ▸ h), rfl⟩
  rw [hsum]
  exact wordOperation_finishWord_of_mode32 r hm (hn ▸ add_eq_ofInt a b)

end

/-! ### The six instructions -/

/-- Settles O19. -/
theorem addResult : Obligations.AddResult := fun rd rs rt _ hm =>
  ⟨Laws.decodeOfEncode (.add rd rs rt), wordOperation_addChecked_of_mode32 rd hm rfl⟩

/-- Settles O20: the immediate keeps its signed value when it is extended. -/
theorem addiResult : Obligations.AddiResult := fun rt rs imm _ hm =>
  ⟨Laws.decodeOfEncode (.addi rt rs imm), wordOperation_addChecked_of_mode32 rt hm (by rw [toInt_signedImm])⟩

/-- Settles O21. -/
theorem addiuResult : Obligations.AddiuResult := fun rt rs imm _ hm =>
  ⟨Laws.decodeOfEncode (.addiu rt rs imm),
    wordOperation_finishWord_of_mode32 rt hm (by rw [add_eq_ofInt, toInt_signedImm])⟩

/-- Settles O22. -/
theorem adduResult : Obligations.AdduResult := fun rd rs rt _ hm =>
  ⟨Laws.decodeOfEncode (.addu rd rs rt), wordOperation_finishWord_of_mode32 rd hm (add_eq_ofNat _ _)⟩

/-- Settles O23: the comparison decides which word was written. -/
theorem sltuResult : Obligations.SltuResult := by
  intro rd rs rt s hm
  obtain ⟨t, ht, hadv, hwrites⟩ := finishFull_of_mode32 rd hm (lessUnsigned 32 (s.x rs) (s.x rt))
    (lessUnsigned 64 (s.x64 rs) (s.x64 rt))
  exact ⟨Laws.decodeOfEncode (.sltu rd rs rt), t, ht, hadv, fun h => lessUnsigned_of_lt h ▸ hwrites,
    fun h => lessUnsigned_of_le h ▸ hwrites⟩

/-- Settles O24. -/
theorem subuResult : Obligations.SubuResult := fun rd rs rt _ hm =>
  ⟨Laws.decodeOfEncode (.subu rd rs rt), wordOperation_finishWord_of_mode32 rd hm (sub_eq_ofInt _ _)⟩

end Sys2Proof.Machine
end

section
/-! PROOFS. Logic and constants (41_logical.md) in the normative 32-bit mode: the results of AND, NOR, OR (O25), of ANDI and
ORI (O26), and of LUI (O27). -/

namespace Sys2Proof.Machine

/-! ### Results bit by bit -/

/-- The form of the bitwise statements: an operation on whole registers completes with the word whose bits `bit` gives. -/
theorem finishFull_bits_of_mode32 {s : State} (r : Reg) (hm : s.launch.mode64 = false) (v : Word) (d : DWord)
    {bit : Nat → Bool} (h : ∀ k < 32, v.getLsbD k = bit k) :
    ∃ t w, finishFull s r v d = .next t ∧ Advances s t ∧ WritesWord s t r w ∧ ∀ k < 32, w.getLsbD k = bit k := by
  obtain ⟨t, ht, hadv, hwrites⟩ := finishFull_of_mode32 r hm v d
  exact ⟨t, v, ht, hadv, hwrites, h⟩

theorem getLsbD_nor (a b : Word) {k : Nat} (hk : k < 32) :
    (~~~(a ||| b)).getLsbD k = !(a.getLsbD k || b.getLsbD k) := by
  rw [BitVec.getLsbD_not, BitVec.getLsbD_or, decide_eq_true hk, Bool.true_and]

/-! ### The immediate as a word -/

/-- Zero-extension: the upper sixteen bits are clear (R122, R126). -/
theorem getLsbD_zeroImm (imm : Imm16) (k : Nat) : (zeroImm imm).getLsbD k = (decide (k < 16) && imm.getLsbD k) := by
  rw [zeroImm, BitVec.getLsbD_setWidth]
  by_cases hk : k < 16
  · rw [decide_eq_true hk, decide_eq_true (by omega : k < 32)]
  · rw [BitVec.getLsbD_of_ge imm k (by omega), Bool.and_false, Bool.and_false]

theorem upperImm_eq_ofNat (imm : Imm16) : upperImm imm = BitVec.ofNat 32 (imm.toNat * 2 ^ 16) := by
  apply BitVec.eq_of_toNat_eq
  rw [upperImm, BitVec.toNat_append, BitVec.toNat_zero, Nat.or_zero, Nat.shiftLeft_eq, BitVec.toNat_ofNat]
  omega

/-! ### The six instructions -/

/-- Settles O25. -/
theorem registerLogicResults : Obligations.RegisterLogicResults := fun rd rs rt s hm =>
  ⟨Laws.decodeOfEncode (.and rd rs rt), Laws.decodeOfEncode (.nor rd rs rt), Laws.decodeOfEncode (.or rd rs rt),
    finishFull_bits_of_mode32 rd hm (s.x rs &&& s.x rt) _ fun _ _ => BitVec.getLsbD_and,
    finishFull_bits_of_mode32 rd hm (~~~(s.x rs ||| s.x rt)) _ fun _ hk => getLsbD_nor _ _ hk,
    finishFull_bits_of_mode32 rd hm (s.x rs ||| s.x rt) _ fun _ _ => BitVec.getLsbD_or⟩

/-- Settles O26: above bit 15 the immediate clears the bit of `x[rs]` in ANDI and keeps it in ORI. -/
theorem immediateLogicResults : Obligations.ImmediateLogicResults := fun rt rs imm s hm =>
  ⟨Laws.decodeOfEncode (.andi rt rs imm), Laws.decodeOfEncode (.ori rt rs imm),
    finishFull_bits_of_mode32 rt hm (s.x rs &&& zeroImm imm) _ fun _ _ => by
      rw [BitVec.getLsbD_and, getLsbD_zeroImm, Bool.and_left_comm],
    finishFull_bits_of_mode32 rt hm (s.x rs ||| zeroImm imm) _ fun _ _ => by
      rw [BitVec.getLsbD_or, getLsbD_zeroImm]⟩

/-- Settles O27. -/
theorem luiResult : Obligations.LuiResult := fun rt imm _ hm =>
  ⟨Laws.decodeOfEncode (.lui rt imm), upperImm_eq_ofNat imm ▸ finishFull_of_mode32 rt hm (upperImm imm) _⟩

end Sys2Proof.Machine
end

section
/-! PROOFS. Control transfer (42_control_transfer.md): the results of BEQ and BNE (O30), of J (O31), JAL (O32) and JR
(O33) in the normative 32-bit mode; and, in either mode, the delay slot: no transfer completes in it (O34), and the
instruction in it executes before the target (O35). -/

namespace Sys2Proof.Machine

/-! ### The delay slot (R141, R148) -/

section
variable {s t : State}

/-- R26 step 6, of the five transfers. -/
theorem controlTransfer_of_slot (hd : s.ds = true) (taken : Bool) (a : Addr) :
    controlTransfer s taken a = .refused (.controlTransferInDelaySlot s.pcAddr) := if_pos hd

/-- Settles O34: JAL's write of the link register leaves `ds` and `pc`, which the check reads. -/
theorem transferInDelaySlotRefused : Obligations.TransferInDelaySlotRefused := by
  intro i s hi hd
  cases i with
  | beq | bne | j | jr => exact controlTransfer_of_slot hd _ _
  | jal target =>
    have hlink := controlTransfer_of_slot (s := s.setLink) ((setFull_ds ..).trans hd) true (s.jumpTarget target)
    rwa [show s.setLink.pcAddr = s.pcAddr from setFull_pcAddr ..] at hlink
  | _ => cases hi

/-- The step in a delay slot, if it completes, is no transfer's: control goes to `npc`, outside a slot (R141). -/
theorem step_of_slot (hd : s.ds = true) (h : step s = .next t) :
    t.pcAddr = s.npcAddr ∧ t.npcAddr = s.wrap (s.npcAddr + 4) ∧ t.ds = false ∧ t.launch = s.launch := by
  obtain ⟨i, -, hexec⟩ := (step_next s t).1 h
  obtain ⟨hpc, -, hlaunch, hslot, hnpc⟩ := completion_sequencing (exec_completion hexec)
  have hds : t.ds = false := Bool.eq_false_iff.2 fun ht => Bool.false_ne_true ((hslot ht).symm.trans hd)
  exact ⟨hpc, hnpc hds, hds, hlaunch⟩

/-- A branch not taken leaves `npc` as an instruction that is no transfer does. -/
theorem controlTransfer_notTaken_npcAddr {taken : Bool} {a : Addr} (h : controlTransfer s taken a = .next t)
    (ht : taken = false) : t.npcAddr = s.wrap (s.npcAddr + 4) := by
  obtain ⟨-, rfl⟩ := (controlTransfer_next ..).1 h
  subst ht
  exact sequence_npcAddr s _ _ (wrap_lt s _)

end

/-- The comparison of BEQ and BNE, in either mode (R35, R143). -/
theorem registersEqual_iff (s : State) (rs rt : Reg) :
    s.registersEqual rs rt = true ↔ if s.launch.mode64 then s.x64 rs = s.x64 rt else s.x rs = s.x rt := by
  unfold State.registersEqual
  split <;> exact beq_iff_eq

/-- Settles O35: the transfer leaves `pc` at the old `npc`, which R27 places at the slot, and the step in the slot goes to
the `npc` that the transfer left. -/
theorem delaySlotExecutesBeforeTheTarget : Obligations.DelaySlotExecutesBeforeTheTarget := by
  intro i s t u hi hnext hexec hstep
  obtain ⟨htpc, htds, htlaunch, htslot, -⟩ := completion_sequencing (exec_completion hexec)
  rw [hi] at htds
  obtain ⟨hupc, hunpc, huds, -⟩ := step_of_slot htds hstep
  have halen : t.alen = s.alen := by simp [State.alen, htlaunch]
  have hfollows := hnext (htslot htds)
  have four : (4 : Addr).toNat = 4 := rfl
  have hpast (h : t.npcAddr = s.wrap (s.npcAddr + 4)) : u.pcAddr.toNat = (s.pcAddr.toNat + 8) % 2 ^ s.alen := by
    rw [hupc, h, toNat_wrap_add, hfollows, four, Nat.mod_add_mod]
  refine ⟨htpc ▸ hfollows, htds, hupc, by rw [hunpc, toNat_wrap_add, halen, four], huds, fun rs rt offset hbranch => ?_⟩
  rw [← registersEqual_iff] at hbranch
  obtain ⟨rfl, hne⟩ | ⟨rfl, heq⟩ := hbranch
  · exact hpast (controlTransfer_notTaken_npcAddr hexec (Bool.eq_false_iff.2 hne))
  · exact hpast (controlTransfer_notTaken_npcAddr hexec (congrArg not heq))

/-! ### Results in the 32-bit mode -/

section
variable {s : State} (hm : s.launch.mode64 = false)
include hm

theorem registersEqual_of_mode32 (rs rt : Reg) : s.registersEqual rs rt = true ↔ s.x rs = s.x rt := by
  simp [registersEqual_iff, hm]

/-- The frame of JAL: the link register holds the address after the delay slot, whatever the target. -/
theorem setLink_transfer_writesWord (a : Addr) :
    WritesWord s (s.setLink.transfer true a) 31 (BitVec.ofNat 32 (s.pc.toNat + 8)) where
  value := by
    rw [x_transfer, setLink_eq, setFull_of_mode32 _ _ _ _ hm, x_setX_self, add_eq_ofNat]
    rfl
  others r hr := by rw [x_transfer, setLink_eq, x_setFull_ne _ _ _ _ _ hr]
  high r := by rw [hi_transfer, setLink_eq, setFull_of_mode32 _ _ _ _ hm, hi_setX]
  rest := setLink_transfer_keepsRest s true a

end

/-! ### The five instructions -/

/-- Settles O30. -/
theorem branchResults : Obligations.BranchResults := by
  intro rs rt offset s hm hd
  have heq := registersEqual_of_mode32 hm rs rt
  have hne : (!s.registersEqual rs rt) = true ↔ s.x rs ≠ s.x rt := by rw [Bool.not_eq_true', ← Bool.not_eq_true, heq]
  have htarget : (s.branchTarget offset).toNat = ((s.pc.toNat + 4 + 4 * offset.toInt) % 2 ^ 32).toNat := by
    rw [← branchTarget_of_mode32 s offset hm, Int.toNat_natCast]
  exact ⟨Laws.decodeOfEncode (.beq rs rt offset), Laws.decodeOfEncode (.bne rs rt offset),
    controlTransfer_completes hd heq (branchTarget_lt s offset) htarget,
    controlTransfer_completes hd hne (branchTarget_lt s offset) htarget⟩

/-- Settles O31. -/
theorem jumpResult : Obligations.JumpResult := fun target s hm hd =>
  ⟨Laws.decodeOfEncode (.j target),
    controlTransfer_completes hd (iff_of_true rfl trivial) (jumpTarget_lt s target) (jumpTarget_of_mode32 s target hm)⟩

/-- Settles O32. -/
theorem jumpAndLinkResult : Obligations.JumpAndLinkResult := fun target s hm hd =>
  ⟨Laws.decodeOfEncode (.jal target), _, execJal_next hd target, setLink_transfer_writesWord hm _,
    jumpTarget_of_mode32 s target hm ▸ setLink_transfer_transfers s (jumpTarget_lt s target)⟩

/-- A step at a misaligned address raises `AddressError(fetch, pc)` (R26 step 2): an aligned `END_ADDR` does not end the
run there. -/
theorem step_of_misaligned_of_endAligned {s : State} (he : wordAligned s.launch.endAddr = true)
    (ha : wordAligned s.pcAddr = false) : step s = .fault (.raised (.addressError .fetch s.pcAddr) s.pcAddr) := by
  refine step_of_misaligned s ((isOver_eq_false_iff s).2 fun ⟨hend, _⟩ => ?_) ha
  exact Bool.false_ne_true (ha.symm.trans (hend ▸ he))

/-- Settles O33: the step in the slot takes the register's value, low bits included, from `npc` to `pc`. -/
theorem jumpRegisterResult : Obligations.JumpRegisterResult := by
  intro rs s hm hd
  have htarget : (s.registerTarget rs).toNat = (s.x rs).toNat := by
    rw [registerTarget_of_mode32 s rs hm, toNat_wordAddress]
  obtain ⟨t, ht, hregs, hrest, htransfers⟩ :=
    controlTransfer_completes hd (iff_of_true (rfl : true = true) trivial) (registerTarget_lt s rs) htarget
  refine ⟨Laws.decodeOfEncode (.jr rs), t, ht, hregs, hrest, htransfers, fun u hu hmis he => ?_⟩
  obtain ⟨hpc, -, -, hlaunch⟩ := step_of_slot htransfers.ds hu
  have hux : u.pcAddr = wordAddress (s.x rs) := by
    apply BitVec.eq_of_toNat_eq
    rw [hpc, htransfers.npcTaken trivial, toNat_wordAddress]
  rw [← toNat_wordAddress, ← wordAligned_eq_false_iff, ← hux] at hmis
  rw [← hux]
  exact step_of_misaligned_of_endAligned (by rwa [hlaunch, hrest.launch]) hmis

end Sys2Proof.Machine
end

section
/-! PROOFS. The pseudo-instruction LA (43_pseudo_la.md): the code it expands to, and that executing the code leaves the
address in the register (O46). -/

namespace Sys2Proof.Machine

/-! ### The two halves of the address -/

/-- The two constants of the expansion make up the address (R66, R126). -/
theorem upperImm_or_zeroImm (a : Word) : upperImm (a.extractLsb' 16 16) ||| zeroImm (a.extractLsb' 0 16) = a := by
  have hzero : zeroImm (a.extractLsb' 0 16) = 0#16 ++ a.extractLsb' 0 16 := BitVec.setWidth_eq_append (by decide)
  rw [hzero, upperImm, BitVec.or_append, BitVec.or_zero, BitVec.zero_or]
  exact (BitVec.extractLsb'_append_extractLsb'_eq_extractLsb' rfl).trans BitVec.extractLsb'_eq_self

/-- Above a zero lower half, LUI's constant is the whole address. -/
theorem upperImm_of_low_zero {a : Word} (h : a.extractLsb' 0 16 = 0) : upperImm (a.extractLsb' 16 16) = a := by
  simpa [h, zeroImm] using upperImm_or_zeroImm a

/-- The expansion, in the numbers of R160. -/
theorem expandLa_eq (rt : Reg) (a : Word) :
    expandLa rt a = if a.toNat % 2 ^ 16 = 0 then [.lui rt (BitVec.ofNat 16 (a.toNat / 2 ^ 16))]
      else [.lui rt (BitVec.ofNat 16 (a.toNat / 2 ^ 16)), .ori rt rt (BitVec.ofNat 16 a.toNat)] := by
  have hlow : a.extractLsb' 0 16 = BitVec.ofNat 16 a.toNat := rfl
  have hhigh : a.extractLsb' 16 16 = BitVec.ofNat 16 (a.toNat / 2 ^ 16) := by
    rw [BitVec.extractLsb', Nat.shiftRight_eq_div_pow]
  have hzero : BitVec.ofNat 16 a.toNat = 0 ↔ a.toNat % 2 ^ 16 = 0 := by
    rw [← BitVec.toNat_inj, BitVec.toNat_ofNat]
    rfl
  simp only [expandLa, hlow, hhigh, hzero]

/-! ### Instructions in sequence -/

theorem execAll_cons_of_next {i : Instr} {s t : State} (rest : List Instr) (h : exec i s = .next t) :
    execAll (i :: rest) s = execAll rest t := by
  rw [execAll, h]

theorem KeepsRest.trans {s t u : State} (h : KeepsRest s t) (h' : KeepsRest t u) : KeepsRest s u where
  memory a := (h'.memory a).trans (h.memory a)
  launch := h'.launch.trans h.launch
  draws := h'.draws.trans h.draws

/-- Of two results in one register the second is left. -/
theorem WritesWord.trans {s t u : State} {r : Reg} {v w : Word} (h : WritesWord s t r v) (h' : WritesWord t u r w) :
    WritesWord s u r w where
  value := h'.value
  others q hq := (h'.others q hq).trans (h.others q hq)
  high q := (h'.high q).trans (h.high q)
  rest := h.rest.trans h'.rest

/-- A word written to register 0 is discarded, whatever it is (R22). -/
theorem WritesWord.congr {s t : State} {r : Reg} {v w : Word} (h : WritesWord s t r v) (hvw : r ≠ 0 → v = w) :
    WritesWord s t r w where
  value := h.value.trans (ite_congr rfl (fun _ => rfl) hvw)
  others := h.others
  high := h.high
  rest := h.rest

/-! ### The expansion executed -/

section
variable {s : State} (rt : Reg) (hm : s.launch.mode64 = false)
include hm

theorem exec_lui_of_mode32 (imm : Imm16) :
    ∃ t, exec (.lui rt imm) s = .next t ∧ Advances s t ∧ WritesWord s t rt (upperImm imm) :=
  finishFull_of_mode32 rt hm (upperImm imm) _

theorem exec_ori_of_mode32 (rs : Reg) (imm : Imm16) :
    ∃ t, exec (.ori rt rs imm) s = .next t ∧ Advances s t ∧ WritesWord s t rt (s.x rs ||| zeroImm imm) :=
  finishFull_of_mode32 rt hm (s.x rs ||| zeroImm imm) _

/-- R160: ORI, where it is needed, reads the upper half that LUI wrote. -/
theorem execAll_expandLa (a : Word) :
    ∃ t, execAll (expandLa rt a) s = .next t ∧ WritesWord s t rt a ∧ t.ds = false := by
  obtain ⟨t, hlui, hadv, ht⟩ := exec_lui_of_mode32 rt hm (a.extractLsb' 16 16)
  unfold expandLa
  split
  case isTrue hlow =>
    rw [upperImm_of_low_zero hlow] at ht
    exact ⟨t, execAll_cons_of_next [] hlui, ht, hadv.ds⟩
  case isFalse =>
    obtain ⟨u, hori, hadv', hu⟩ := exec_ori_of_mode32 rt (ht.rest.launch ▸ hm) rt (a.extractLsb' 0 16)
    refine ⟨u, (execAll_cons_of_next _ hlui).trans (execAll_cons_of_next [] hori), ?_, hadv'.ds⟩
    exact (ht.trans hu).congr fun hrt => by rw [ht.value, if_neg hrt, upperImm_or_zeroImm]

end

/-- Settles O46: the effect, then the two lengths of the expansion. -/
theorem laLeavesTheAddress : Obligations.LaLeavesTheAddress := fun rt a _ hm =>
  ⟨execAll_expandLa rt hm a, fun h => by rw [expandLa_eq, if_pos h], fun h => by rw [expandLa_eq, if_neg h]⟩

end Sys2Proof.Machine
end

section
/-! PROOFS. Load and store (44_load_store.md) in the normative 32-bit mode: the results of LW (O36) and SW (O37). -/

namespace Sys2Proof.Machine

/-! ### The branches of an access (R42 to R44, R53) and the word stored (R172) -/

section
variable {s : State} {a : Addr}

theorem aligned_of_aligned (ha : a.toNat % 4 = 0) (kind : AccessKind) (access : StepResult) :
    aligned s kind a access = access := if_pos ((wordAligned_iff a).2 ha)

theorem aligned_of_misaligned (ha : a.toNat % 4 ≠ 0) (kind : AccessKind) (access : StepResult) :
    aligned s kind a access = .fault (.raised (.addressError kind a) s.pcAddr) :=
  if_neg ((wordAligned_iff a).not.2 ha)

theorem loadWord_of_absent (h : s.memRead a = none) (use : Word → StepResult) :
    loadWord s a use = .refused (.unallocatedAccess a) := by
  rw [loadWord, h]

theorem storeWord_of_inText (ht : s.inText a = true) (v : Word) : storeWord s a v = .refused (.storeToText a) :=
  if_pos ht

theorem storeWord_of_absent (ht : s.inText a = false) (h : s.memRead a = none) (v : Word) :
    storeWord s a v = .refused (.unallocatedAccess a) := by
  simp [storeWord, ht, h]

theorem storeWord_of_held (ht : s.inText a = false) (h : s.memRead a ≠ none) (v : Word) :
    storeWord s a v = .next (s.putWord a v).advance :=
  (storeWord_next ..).2 ⟨ht, Option.isSome_iff_ne_none.2 h, rfl⟩

theorem storedWord_of_mode32 (hm : s.launch.mode64 = false) (r : Reg) : s.storedWord r = s.x r := by
  simp [State.storedWord, hm]

end

/-! ### The two instructions -/

/-- Settles O36: alignment comes first, then admission, then the access (R170). -/
theorem loadWordResult : Obligations.LoadWordResult := by
  intro rt offset base s hm
  refine ⟨Laws.decodeOfEncode (.lw rt offset base), effectiveAddress_of_mode32 s offset base hm,
    fun hmis => aligned_of_misaligned hmis _ _, fun halign w hw => ?_, fun halign habsent => ?_⟩
  · exact ⟨_, execLw_of_memRead rfl ((wordAligned_iff _).2 halign) hw, setFull_advances s rt w _,
      setFull_writesWord rt w _ hm⟩
  · exact (aligned_of_aligned halign _ _).trans (loadWord_of_absent habsent _)

/-- Settles O37: in the same order, with the text (R53) checked before the memory. -/
theorem storeWordResult : Obligations.StoreWordResult := by
  intro rt offset base s hm
  refine ⟨Laws.decodeOfEncode (.sw rt offset base), effectiveAddress_of_mode32 s offset base hm,
    fun hmis => aligned_of_misaligned hmis _ _,
    fun halign htext => (aligned_of_aligned halign _ _).trans (storeWord_of_inText htext _),
    fun halign htext habsent => (aligned_of_aligned halign _ _).trans (storeWord_of_absent htext habsent _),
    fun halign htext hheld => ?_⟩
  refine ⟨_, (aligned_of_aligned halign _ _).trans (storeWord_of_held htext hheld _), putWord_advances s _ _, ?_⟩
  rw [← storedWord_of_mode32 hm]
  exact putWord_storesWord s _ _

end Sys2Proof.Machine
end

section
/-! PROOFS. Shifts (45_shift.md): the results of SLL and SRL in the normative 32-bit mode (O28), and `nop` in either mode
(O29). -/

namespace Sys2Proof.Machine

/-- Settles O28: SLL takes any word in `rt`, and SRL is a word operation, whose operand is always valid in this mode. -/
theorem shiftResults : Obligations.ShiftResults := fun rd rt sa s hm =>
  ⟨Laws.decodeOfEncode (.sll rd rt sa), Laws.decodeOfEncode (.srl rd rt sa),
    shiftLeft_eq_ofNat (s.x rt) sa.toNat ▸ finishFull_of_mode32 rd hm (s.x rt <<< sa.toNat) _,
    wordOperation_finishWord_of_mode32 rd hm (shiftRight_eq_ofNat (s.x rt) sa.toNat)⟩

/-- R183: the whole effect of `nop` is the sequencing, since register 0 discards what SLL writes (R22). -/
theorem exec_nop (s : State) : exec nop s = .next s.advance :=
  (finishWord_next ..).2 (congrArg State.advance (setFull_zero ..)).symm

theorem advance_advances (s : State) : Advances s s.advance := advances_of_kept s rfl rfl rfl rfl

theorem advance_keepsRest (s : State) : KeepsRest s s.advance where
  memory _ := by rw [advance_mem]
  launch := advance_launch s
  draws := advance_draws s

/-- Settles O29. -/
theorem nopOnlyAdvances : Obligations.NopOnlyAdvances :=
  ⟨Laws.decodeOfEncode nop, fun s => ⟨_, exec_nop s, advance_advances s, x64_advance s, advance_keepsRest s⟩⟩

end Sys2Proof.Machine
end

section
/-! PROOFS. The stops (60_exceptions.md), in either mode: which instruction raises an exception, and when (O41), and where
a step is refused (O42). -/

namespace Sys2Proof.Machine

/-! ### Where each shared operation stops -/

section
variable {s : State} {f : Fault} {q : Refusal} (dst : Reg) (v : Word) (d : DWord)

@[simp] theorem finishFull_ne_fault : finishFull s dst v d ≠ .fault f := nofun

@[simp] theorem finishFull_ne_refused : finishFull s dst v d ≠ .refused q := nofun

@[simp] theorem finishWord_ne_fault : finishWord s dst v ≠ .fault f := nofun

@[simp] theorem finishWord_ne_refused : finishWord s dst v ≠ .refused q := nofun

/-- A word operation stops on valid operands only, where what it runs stops (R36). -/
theorem wordOperation_stop {o : StepResult} (ho : ∀ t, o ≠ .next t) (sources : List Reg) (run : StepResult) :
    wordOperation s dst sources run = o ↔ s.operandsValid sources = true ∧ run = o := by
  cases hv : s.operandsValid sources
  · simp [wordOperation_of_invalid s dst sources run hv, (ho _).symm]
  · simp [wordOperation_of_valid s dst sources run hv]

@[simp] theorem wordOperation_fault (sources : List Reg) (run : StepResult) :
    wordOperation s dst sources run = .fault f ↔ s.operandsValid sources = true ∧ run = .fault f :=
  wordOperation_stop dst (by simp) sources run

@[simp] theorem wordOperation_refused (sources : List Reg) (run : StepResult) :
    wordOperation s dst sources run = .refused q ↔ s.operandsValid sources = true ∧ run = .refused q :=
  wordOperation_stop dst (by simp) sources run

@[simp] theorem addChecked_fault (a b : Word) :
    addChecked s dst a b = .fault f ↔ addOverflows a b = true ∧ f = .raised .overflow s.pcAddr := by
  cases ho : addOverflows a b
  · simp [addChecked, ho]
  · simp [addChecked, ho, raiseException, eq_comm]

@[simp] theorem addChecked_ne_refused (a b : Word) : addChecked s dst a b ≠ .refused q := by
  cases ho : addOverflows a b <;> simp [addChecked, ho, raiseException]

@[simp] theorem controlTransfer_ne_fault (taken : Bool) (a : Addr) : controlTransfer s taken a ≠ .fault f := by
  cases hd : s.ds <;> simp [controlTransfer, hd]

@[simp] theorem controlTransfer_refused (taken : Bool) (a : Addr) :
    controlTransfer s taken a = .refused q ↔ s.ds = true ∧ q = .controlTransferInDelaySlot s.pcAddr := by
  cases hd : s.ds <;> simp [controlTransfer, hd, eq_comm]

@[simp] theorem aligned_fault (kind : AccessKind) (a : Addr) (access : StepResult) :
    aligned s kind a access = .fault f ↔
      (a.toNat % 4 ≠ 0 ∧ f = .raised (.addressError kind a) s.pcAddr) ∨ (a.toNat % 4 = 0 ∧ access = .fault f) := by
  by_cases ha : a.toNat % 4 = 0
  · simp [aligned_of_aligned ha, ha]
  · simp [aligned_of_misaligned ha, ha, eq_comm]

@[simp] theorem aligned_refused (kind : AccessKind) (a : Addr) (access : StepResult) :
    aligned s kind a access = .refused q ↔ a.toNat % 4 = 0 ∧ access = .refused q := by
  by_cases ha : a.toNat % 4 = 0
  · simp [aligned_of_aligned ha, ha]
  · simp [aligned_of_misaligned ha, ha]

@[simp] theorem loadWord_fault (a : Addr) (use : Word → StepResult) :
    loadWord s a use = .fault f ↔ ∃ w, s.memRead a = some w ∧ use w = .fault f := by
  cases hm : s.memRead a <;> simp [loadWord, hm]

@[simp] theorem loadWord_refused (a : Addr) (use : Word → StepResult) :
    loadWord s a use = .refused q ↔
      (s.memRead a = none ∧ q = .unallocatedAccess a) ∨ ∃ w, s.memRead a = some w ∧ use w = .refused q := by
  cases hm : s.memRead a <;> simp [loadWord, hm, eq_comm]

@[simp] theorem storeWord_ne_fault (a : Addr) : storeWord s a v ≠ .fault f := by
  unfold storeWord
  split_ifs <;> nofun

@[simp] theorem storeWord_refused (a : Addr) :
    storeWord s a v = .refused q ↔
      (s.inText a = true ∧ q = .storeToText a) ∨
      (s.inText a = false ∧ s.memRead a = none ∧ q = .unallocatedAccess a) := by
  cases ht : s.inText a
  · cases hm : s.memRead a <;> simp [storeWord, ht, hm, eq_comm]
  · simp [storeWord, ht, eq_comm]

end

/-! ### Where each instruction stops -/

/-- Settles O41: the two instructions that check a sum raise where it overflows, the two that access memory raise where
the address is misaligned, and no other instruction's operation raises. -/
theorem exceptionsAreExactlyThese : Obligations.ExceptionsAreExactlyThese := by
  intro i s f
  cases i with
  | add => simp [exec, execAdd, and_assoc, and_comm, and_left_comm]
  | addi rt rs imm =>
    have himm : BitVec.ofInt 32 imm.toInt = signedImm imm := rfl
    simp [exec, execAddi, himm, and_assoc, and_comm, and_left_comm]
  | lw => simp [exec, execLw, and_assoc]
  | sw => simp [exec, execSw, and_assoc]
  | addiu | addu | subu | srl => simp [exec, execAddiu, execAddu, execSubu, execSrl]
  | and | andi | nor | or | ori | sltu | lui | sll =>
    simp [exec, execAnd, execAndi, execNor, execOr, execOri, execSltu, execLui, execSll]
  | beq | bne | j | jal | jr => simp [exec, execBeq, execBne, execJ, execJal, execJr]

/-- R209, of the instructions: a transfer in a delay slot, an access to a word that memory does not hold, a store into
the text. -/
theorem exec_refused (i : Instr) (s : State) (q : Refusal) : exec i s = .refused q ↔
    (q = .controlTransferInDelaySlot s.pcAddr ∧ i.isTransfer = true ∧ s.ds = true) ∨
    (∃ rt offset base,
      (i = .lw rt offset base ∨ i = .sw rt offset base ∧ s.inText (s.effectiveAddress base offset) = false) ∧
      q = .unallocatedAccess (s.effectiveAddress base offset) ∧ (s.effectiveAddress base offset).toNat % 4 = 0 ∧
      s.memRead (s.effectiveAddress base offset) = none) ∨
    (∃ rt offset base, i = .sw rt offset base ∧ q = .storeToText (s.effectiveAddress base offset) ∧
      (s.effectiveAddress base offset).toNat % 4 = 0 ∧ s.inText (s.effectiveAddress base offset) = true) := by
  cases i with
  | lw => simp [exec, execLw, Instr.isTransfer, and_assoc, and_comm, and_left_comm]
  | sw =>
    simp [exec, execSw, Instr.isTransfer, and_or_left, or_comm, and_assoc, and_comm, and_left_comm]
  | beq | bne | j | jr => simp [exec, execBeq, execBne, execJ, execJr, Instr.isTransfer, and_comm]
  | jal => simp [exec, execJal, setLink_eq, Instr.isTransfer, and_comm]
  | add | addi | addiu | addu | subu | srl =>
    simp [exec, execAdd, execAddi, execAddiu, execAddu, execSubu, execSrl, Instr.isTransfer]
  | and | andi | nor | or | ori | sltu | lui | sll =>
    simp [exec, execAnd, execAndi, execNor, execOr, execOri, execSltu, execLui, execSll, Instr.isTransfer]

/-! ### Where the fetch and the step stop -/

section
variable (s : State) (q : Refusal)

theorem fetches_iff (w : Word) : Fetches s w ↔
    s.isOver = false ∧ wordAligned s.pcAddr = true ∧ s.inText s.pcAddr = true ∧ s.memRead s.pcAddr = some w := by
  rw [isOver_eq_false_iff, wordAligned_iff, inText_iff]
  exact ⟨fun ⟨hgoing, halign, habove, hbelow, hheld⟩ => ⟨hgoing, halign, ⟨habove, hbelow⟩, hheld⟩,
    fun ⟨hgoing, halign, ⟨habove, hbelow⟩, hheld⟩ => ⟨hgoing, halign, habove, hbelow, hheld⟩⟩

/-- The fetch is refused in steps 3 to 5 of R26: outside the text, at a word that memory does not hold, at a reserved
encoding. -/
theorem fetchInstr_refused : fetchInstr s = .refused q ↔
    (q = .fetchOutsideText s.pcAddr ∧ s.isOver = false ∧ wordAligned s.pcAddr = true ∧ s.inText s.pcAddr = false) ∨
    (q = .unallocatedAccess s.pcAddr ∧ s.isOver = false ∧ wordAligned s.pcAddr = true ∧ s.inText s.pcAddr = true ∧
      s.memRead s.pcAddr = none) ∨
    ∃ w, Fetches s w ∧ q = .reservedEncoding s.pcAddr w ∧ ∃ why, decodeWord w = .reserved why := by
  simp only [fetches_iff]
  unfold fetchInstr
  cases ho : s.isOver
  · cases ha : wordAligned s.pcAddr
    · simp
    · cases ht : s.inText s.pcAddr
      · simp [eq_comm]
      · cases hm : s.memRead s.pcAddr with
        | none => simp [eq_comm]
        | some w => cases hd : decodeWord w <;> simp [hd, eq_comm]
  · simp

/-- A step is refused in its fetch or by the instruction fetched. -/
theorem step_refused : step s = .refused q ↔
    fetchInstr s = .refused q ∨ ∃ w i, Fetches s w ∧ decodeWord w = .instr i ∧ exec i s = .refused q := by
  constructor
  · intro h
    cases hf : fetchInstr s with
    | next i =>
      obtain ⟨hgoing, halign, htext, w, hheld, hd⟩ := (fetchInstr_next s i).1 hf
      exact .inr ⟨w, i, (fetches_iff s w).2 ⟨hgoing, halign, htext, hheld⟩, hd, step_of_fetchInstr_next s hf ▸ h⟩
    | fault => simp [step, hf] at h
    | refused => exact .inl (by simpa [step, hf] using h)
  · rintro (hf | ⟨w, i, hw, hd, h⟩)
    · simp [step, hf]
    · rwa [step_of_fetchInstr_next s (fetchInstr_of_fetches hw hd)]

end

/-- Settles O42: the three refusals of the fetch, then the three of the instruction fetched. -/
theorem refusalsAreOnlyThese : Obligations.RefusalsAreOnlyThese := by
  intro s q
  simp only [step_refused, fetchInstr_refused, exec_refused, isOver_eq_false_iff, wordAligned_iff, inText_iff,
    inText_eq_false_iff, Laws.reserved_iff, or_assoc, and_assoc]
  refine or_congr_right (or_congr_right (or_congr_right ⟨?_, ?_⟩))
  · rintro ⟨w, i, hw, hd, hslot | ⟨rt, offset, base, rfl | ⟨rfl, hout⟩, habsent⟩ | ⟨rt, offset, base, rfl, htext⟩⟩
    · exact .inl ⟨w, i, hw, hd, hslot⟩
    · exact .inr (.inl ⟨w, rt, offset, base, hw, .inl hd, habsent⟩)
    · exact .inr (.inl ⟨w, rt, offset, base, hw, .inr ⟨hd, hout⟩, habsent⟩)
    · exact .inr (.inr ⟨w, rt, offset, base, hw, hd, htext⟩)
  · rintro (⟨w, i, hw, hd, hslot⟩ | ⟨w, rt, offset, base, hw, hd | ⟨hd, hout⟩, habsent⟩ |
      ⟨w, rt, offset, base, hw, hd, htext⟩)
    · exact ⟨w, i, hw, hd, .inl hslot⟩
    · exact ⟨w, _, hw, hd, .inr (.inl ⟨rt, offset, base, .inl rfl, habsent⟩)⟩
    · exact ⟨w, _, hw, hd, .inr (.inl ⟨rt, offset, base, .inr ⟨rfl, hout⟩, habsent⟩)⟩
    · exact ⟨w, _, hw, hd, .inr (.inr ⟨rt, offset, base, rfl, htext⟩)⟩

end Sys2Proof.Machine
end

section
/-! PROOFS. The two ends of a run: the step's normal end (R26 step 1, R233; O7) and the invariant at launch (R231;
O12). -/

namespace Sys2Proof.Machine

/-! ### The end of the run -/

/-- R205: the only faults of an instruction are the exceptions, so none is the end of the run. -/
theorem exec_ne_runOver (i : Instr) (s : State) : exec i s ≠ .fault .runOver := by
  intro h
  obtain ⟨hf, -⟩ | ⟨_, _, _, -, -, hf⟩ | ⟨_, _, _, -, -, hf⟩ := (exceptionsAreExactlyThese i s _).1 h <;> cases hf

/-- R26 steps 1 and 2: the two faults of the fetch. -/
theorem fetchInstr_fault (s : State) (f : Fault) : fetchInstr s = .fault f ↔
    (s.isOver = true ∧ f = .runOver) ∨
    (s.isOver = false ∧ wordAligned s.pcAddr = false ∧ f = .raised (.addressError .fetch s.pcAddr) s.pcAddr) := by
  unfold fetchInstr
  cases ho : s.isOver
  · cases ha : wordAligned s.pcAddr
    · simp [eq_comm (a := f)]
    · cases ht : s.inText s.pcAddr
      · simp
      · cases hm : s.memRead s.pcAddr with
        | none => simp
        | some w => cases hd : decodeWord w <;> simp [hd]
  · simp [eq_comm (a := f)]

/-- Settles O7: a step that ends the run does so in its fetch, whose other fault is an exception. -/
theorem runIsOverExactlyAtEndAddr : Obligations.RunIsOverExactlyAtEndAddr := by
  intro s
  rw [← isOver_iff]
  refine ⟨fun h => ?_, step_of_over s⟩
  cases hf : fetchInstr s with
  | next i => exact absurd (step_of_fetchInstr_next s hf ▸ h) (exec_ne_runOver i s)
  | refused => simp [step, hf] at h
  | fault f =>
    obtain rfl : f = .runOver := by simpa [step, hf] using h
    obtain ⟨hover, -⟩ | ⟨-, -, hraised⟩ := (fetchInstr_fault s .runOver).1 hf
    · exact hover
    · cases hraised

/-! ### The domain of a filled memory -/

section
variable (e : Endian) (m : List Host.Cell)

/-- Writing an aligned word adds the bytes of that word to the domain. -/
theorem readByte_writeWord_isSome {a : Addr} (ha : wordAligned a = true) (v : Word) (b : Nat) :
    (Memory.readByte (Memory.writeWord e m a v) b).isSome = true ↔
      a.toNat = 4 * (b / 4) ∨ (Memory.readByte m b).isSome = true := by
  have ha4 := aligned_toNat ha
  by_cases hword : a.toNat = 4 * (b / 4)
  · refine iff_of_true ?_ (.inl hword)
    obtain ⟨h0, h1, h2, h3⟩ := (readWord_isSome e (Memory.writeWord e m a v) a).1 (by simp)
    obtain rfl | rfl | rfl | rfl : b = a.toNat ∨ b = a.toNat + 1 ∨ b = a.toNat + 2 ∨ b = a.toNat + 3 := by omega
    all_goals assumption
  · rw [readByte_writeWord_ne e m a v (by omega)]
    simp [hword]

/-- The domain of a memory filled with aligned words: a byte is there when its word is listed, or when it was before. -/
theorem readByte_writeWords_isSome {cells : List (Addr × Word)} (hc : ∀ d ∈ cells, wordAligned d.1 = true) (b : Nat) :
    (Memory.readByte (Memory.writeWords e m cells) b).isSome = true ↔
      (∃ d ∈ cells, d.1.toNat = 4 * (b / 4)) ∨ (Memory.readByte m b).isSome = true := by
  induction cells with
  | nil => simp [Memory.writeWords]
  | cons c rest ih =>
    obtain ⟨hc0, hrest⟩ := List.forall_mem_cons.1 hc
    rw [Memory.writeWords, readByte_writeWord_isSome e _ hc0, ih hrest, List.exists_mem_cons_iff, or_assoc]

end

/-! ### The invariant at launch -/

section
variable {p : LaunchParams} (h : p.wellFormed = true)
include h

theorem endAddr_fits_of_wellFormed : wordAligned p.endAddr = true ∧ p.endAddr.toNat < 2 ^ p.alen := by
  obtain ⟨-, -, hend, -, -, hfit, -⟩ := wellFormed_iff.1 h
  exact ⟨hend, of_decide_eq_true (Bool.and_eq_true_iff.1 hfit).1⟩

theorem data_lt_of_wellFormed {d : Addr × Word} (hd : d ∈ p.data) : d.1.toNat < 2 ^ p.alen := by
  obtain ⟨-, -, -, -, -, hfit, -⟩ := wellFormed_iff.1 h
  exact of_decide_eq_true (List.all_eq_true.1 (Bool.and_eq_true_iff.1 hfit).2 d hd)

/-- Every word of the launch has an address of the machine's width (R47). -/
theorem launchCells_lt {d : Addr × Word} (hd : d ∈ launchCells p) : d.1.toNat < 2 ^ p.alen := by
  rcases List.mem_append.1 hd with ht | hd
  · exact (launch_inText_iff.1 (textCells_placed h ht).2).2.trans_le (text_end_le_of_wellFormed h)
  · exact data_lt_of_wellFormed h hd

/-- R47: the domain of the memory at launch is made of the words that the launch lists. -/
theorem ofLaunch_readByte_isSome (a : Nat) : (Memory.readByte (State.ofLaunch p).mem a).isSome = true ↔
    ∃ d ∈ launchCells p, d.1.toNat = 4 * (a / 4) :=
  (readByte_writeWords_isSome p.endian [] (launchCells_aligned h) a).trans (by simp [Memory.readByte])

theorem ofLaunch_mem_wf : Memory.wf (State.ofLaunch p).mem :=
  wf_writeWords p.endian [] wf_reset (launchCells p) (launchCells_aligned h)

/-- A listed word ends inside the address space, whose size is a multiple of 4. -/
theorem ofLaunch_mem_inSpace {a : Nat} (ha : (Memory.readByte (State.ofLaunch p).mem a).isSome = true) :
    a < 2 ^ p.alen := by
  obtain ⟨d, hd, heq⟩ := (ofLaunch_readByte_isSome h a).1 ha
  have hlt := launchCells_lt h hd
  obtain ⟨k, -, hspace : 2 ^ p.alen = k * 2 ^ 32, -⟩ := two_pow_alen (State.ofLaunch p)
  omega

theorem ofLaunch_mem_wholeWords (a : Nat) : (Memory.readByte (State.ofLaunch p).mem a).isSome =
    (Memory.readByte (State.ofLaunch p).mem (4 * (a / 4))).isSome := by
  rw [Bool.eq_iff_iff, ofLaunch_readByte_isSome h, ofLaunch_readByte_isSome h, Nat.mul_div_cancel_left _ (by decide)]

theorem ofLaunch_textLoaded {k : Nat} (hk : k < p.text.length) :
    (Memory.readByte (State.ofLaunch p).mem (p.textBase.toNat + 4 * k)).isSome = true := by
  have hword := (readWord_isSome _ _ _).1 (Option.isSome_of_eq_some (ofLaunch_memRead_text h hk))
  exact toNat_textAddress h hk ▸ hword.1

end

/-- Settles O12: the launch lists aligned words inside the address space, each once; the other clauses are R231's own
and the values of `pc` and `npc` at launch. -/
theorem launchMeetsTheInvariant : Obligations.LaunchMeetsTheInvariant := fun p h =>
  { memory := ofLaunch_mem_wf h
    inSpace := fun _ => ofLaunch_mem_inSpace h
    wholeWords := ofLaunch_mem_wholeWords h
    textFits := ⟨(wordAligned_iff _).2 (textBase_aligned_of_wellFormed h), text_end_le_of_wellFormed h⟩
    textLoaded := fun _ => ofLaunch_textLoaded h
    endAligned := endAddr_fits_of_wellFormed h
    pcFits := ⟨(ofLaunch_pcAddr h).symm ▸ entry_lt_of_wellFormed h,
      (ofLaunch_npcAddr p).symm ▸ (toNat_launchNext p).trans_lt (Nat.mod_lt _ (Nat.two_pow_pos _))⟩
    nextFollows := fun _ => ofLaunch_nextFollows p }

end Sys2Proof.Machine
end
